-- ==== Sys2Proof/Word.lean ====
section
/-! DEFINITION. The word and byte types of the hash core (spec/00_scope.md R9). -/

namespace Sys2Proof

/-- A word: 32 bits (R9); `+` on it is addition modulo 2^32 (R10). -/
abbrev Word := BitVec 32

/-- A byte: 8 bits (R9). -/
abbrev Byte := BitVec 8

end Sys2Proof
end

