-- ==== Sys2Proof/Config.lean ====
section
/-! DEFINITION. What an implementation or a platform fixes (spec/00_scope.md R7), and the free values: what the spec
leaves unspecified and nothing in Lean can evaluate. -/

namespace Sys2Proof

/-- The parameters that are arguments of the model (R7): the place of the register block and the salt generator's
multiplier and increment. BASE is a multiple of 0x80 (R70), so its block number is held. State carries them and nothing
writes them (log 4), so a statement about every state is a statement about every value of them. -/
structure Params where
  /-- BASE / 0x80. -/
  baseBlock : Nat
  /-- PRNG_A (R184). -/
  prngA : Word
  /-- PRNG_C (R184). -/
  prngC : Word
deriving DecidableEq, Repr

/-- The size of the register block in bytes (R7, R70). -/
def Params.blockSize : Nat := 0x80

/-- BASE: the Host bus address of offset 0 (R70). -/
def Params.base (p : Params) : Nat := Params.blockSize * p.baseBlock

namespace Config

/-- The spec's defaults of PRNG_A and PRNG_C (R184) with the block at bus address 0. BASE is OPEN in the spec:
block 0 is a DESIGN CHOICE of State.reset alone (log 4, log 13). -/
def defaults : Params := { baseBlock := 0, prngA := 1103515245, prngC := 12345 }

/-- FREE VALUE (R251, log 8): what the n-th unspecified read draws while BUSY = 1. -/
opaque busyRead : Nat → Word

/-- FREE VALUE (R240, log 2): the accumulators after a Reset event. -/
opaque resetAcc : Nat → Vector Word 5

/-- FREE VALUE (R240, log 2): the block buffer after a Reset event. -/
opaque resetBuf : Nat → Vector Byte 64

/-- FREE VALUE (R240, log 2): the generator's state after a Reset event. -/
opaque resetPrng : Nat → Word

end Config

end Sys2Proof
end

