-- ==== Sys2Proof/Machine/State.lean ====
section
/-! DEFINITION. The state of the hash core (spec/10_state.md R30), the events that come to it from outside
(spec/20_memory.md R81), the reasons a step can stop, and the state after reset. -/

namespace Sys2Proof.Machine

/-- The working registers a, b, c, d, e, T and the schedule window W[0..15] that one compression uses (R33, R34). -/
structure Working where
  a : Word
  b : Word
  c : Word
  d : Word
  e : Word
  t : Word
  w : Vector Word 16
deriving DecidableEq, Repr

/-- The working registers and the window zeroized (R147). -/
def Working.zero : Working :=
  { a := 0, b := 0, c := 0, d := 0, e := 0, t := 0, w := Vector.replicate 16 0 }

/-- The hash engine's storage: HashState (R13) and the registers of a compression. -/
structure Engine where
  /-- The accumulators H0..H4 (R32). -/
  h : Vector Word 5
  /-- The block buffer buf[0..63] (R35). -/
  buf : Vector Byte 64
  /-- The count of bytes currently buffered (R36). -/
  bufcnt : BitVec 6
  /-- The count of bits processed so far (R37). -/
  bitcnt : BitVec 64
  /-- a, b, c, d, e, T and W[0..15]. -/
  work : Working
deriving DecidableEq, Repr

/-- The width of a Host access (R72). -/
inductive AccessSize where
  | byte
  | half
  | word
deriving DecidableEq, Repr

/-- One point of the total order of R81: a Host access, a Core step or a Reset. -/
inductive Event where
  /-- The Host reads at a bus address. -/
  | hostRead (addr : Nat) (size : AccessSize)
  /-- The Host writes a value at a bus address. -/
  | hostWrite (addr : Nat) (size : AccessSize) (value : Word)
  /-- The Core executes the pending command, if there is one (R104). -/
  | coreStep
  /-- Reset (R240). -/
  | reset
deriving DecidableEq, Repr

/-- The machine's state. The fields down to `errcode` are the spec's (R30). The last four are the model's own: the
parameters (log 4), the events still to come (log 5), what the last Host read returned (log 7) and the counter of the
free values (log 8). -/
structure State where
  /-- The hash engine: H0..H4, buf, BUFCNT, BITCNT, a..e, T, W. -/
  eng : Engine
  /-- INITD (R38). -/
  initd : Bool
  /-- DIGEST0..DIGEST4 (R39). -/
  digest : Vector Word 5
  /-- DV (R40). -/
  dv : Bool
  /-- PRNG (R41). -/
  prng : Word
  /-- SEEDED (R42). -/
  seeded : Bool
  /-- salt[0..15] (R43). -/
  salt : Vector Byte 16
  /-- SALTLEN (R44). -/
  saltlen : BitVec 5
  /-- DATA (R45). -/
  data : Word
  /-- PEND, the pending command word (R46). -/
  pend : Option Word
  /-- ERR (R47). -/
  err : Bool
  /-- ERRCODE (R47). -/
  errcode : BitVec 4
  /-- BASE, PRNG_A, PRNG_C. -/
  cfg : Params
  /-- The events still to come, oldest first. -/
  env : List Event
  /-- The value the most recent Host read returned, none before the first. -/
  lastRead : Option Word
  /-- How many free values have been drawn. -/
  freeCount : Nat
deriving DecidableEq, Repr

/-- A step that stops. No command error is here: an error is recorded and the machine goes on (R212, R213). -/
inductive Fault where
  /-- Raised by a Host access to an address outside BASE .. BASE + 0x7F, which does not reach the core (R70, R80).
  Safe: the model stops where the core would not notice (log 9). -/
  | outsideBlock
  /-- Raised by FINAL when its padding loop would never end, which takes BITCNT not a multiple of 8. Safe: no run
  reaches such a state (R51(a), R155; log 11). -/
  | paddingDiverges
deriving DecidableEq, Repr

/-- A step that has no meaning. -/
inductive Refusal where
  /-- Raised by exec's arm of a command that has no meaning yet (there is none). Safe: nothing can be proved of it. -/
  | notModelled (mnemonic : String)
  /-- Raised by a Host access of 8 or 16 bits, which "has no meaning in this spec" (R72). Safe (log 10). -/
  | narrowAccess
  /-- Raised by a 32-bit Host access whose offset is not a multiple of 4 (R72). Safe (log 10). -/
  | misaligned
deriving DecidableEq, Repr

/-- The machine right after reset (R30, R240). H0..H4, buf and PRNG are unspecified there: zero is a DESIGN CHOICE
(log 1). -/
def State.reset : State where
  eng :=
    { h := Vector.replicate 5 0
      buf := Vector.replicate 64 0
      bufcnt := 0
      bitcnt := 0
      work := Working.zero }
  initd := false
  digest := Vector.replicate 5 0
  dv := false
  prng := 0
  seeded := false
  salt := Vector.replicate 16 0
  saltlen := 0
  data := 0
  pend := none
  err := false
  errcode := 0
  cfg := Config.defaults
  env := []
  lastRead := none
  freeCount := 0

end Sys2Proof.Machine
end

