-- ==== Sys2Proof/Machine/Operands.lean ====
section
/-! DEFINITION. How operands are taken apart and put together: rotation (spec/00_scope.md R10), the big-endian byte
lanes of a register (spec/20_memory.md R79), the message bytes of an UPDATE (spec/30_encoding.md R101), the block's
words (spec/40_hash_engine.md R142) and the length field (R152). -/

namespace Sys2Proof.Machine

/-- rotl(x, n) for 0 < n < 32 (R10). -/
def rotl (x : Word) (n : Nat) : Word := (x <<< n) ||| (x >>> (32 - n))

/-- BE32: the word whose big-endian bytes these are, `b0` in bits [31:24] (R11). -/
def be32 (b0 b1 b2 b3 : Byte) : Word := b0 ++ b1 ++ b2 ++ b3

/-- Byte k (k = 0..3) of a 32-bit register: bits [31−8k : 24−8k] (R79). -/
def byteLane (v : Word) (k : Nat) : Byte := v.extractLsb' (24 - 8 * k) 8

/-- The bytes an UPDATE n takes from DATA: the first n, DATA[31:24] first (R101, R135). -/
def dataBytes (v : Word) (n : Nat) : List Byte :=
  [byteLane v 0, byteLane v 1, byteLane v 2, byteLane v 3].take n

/-- Schedule word i of a block: its bytes 4i .. 4i+3, big-endian (R142). -/
def blockWord (buf : Vector Byte 64) (i : Fin 16) : Word :=
  be32 buf[4 * i.val] buf[4 * i.val + 1] buf[4 * i.val + 2] buf[4 * i.val + 3]

/-- BE64: the eight bytes of the length field, L[63:56] first (R152). -/
def lengthBytes (l : BitVec 64) : List Byte :=
  [7, 6, 5, 4, 3, 2, 1, 0].map fun k => l.extractLsb' (8 * k) 8

/-- The bytes FINAL absorbs when BUFCNT is `r` and the message is `l` bits long: 0x80, (55 − r) mod 64 zero bytes and
the length field (R151). -/
def paddingBytes (r : Nat) (l : BitVec 64) : List Byte :=
  0x80 :: List.replicate ((119 - r) % 64) 0x00 ++ lengthBytes l

/-- SALTi: salt bytes 4i .. 4i+3 as the Host reads them (R43). -/
def saltWord (salt : Vector Byte 16) (i : Fin 4) : Word :=
  be32 salt[4 * i.val] salt[4 * i.val + 1] salt[4 * i.val + 2] salt[4 * i.val + 3]

end Sys2Proof.Machine
end

