-- ==== Sys2Proof/Machine/Compress.lean ====
section
/-! DEFINITION. The compression function (spec/40_hash_engine.md R140 to R149), in the window form of R143. -/

namespace Sys2Proof.Machine

/-- The initial values of H0..H4 (R132). -/
def initialAcc : Vector Word 5 :=
  #v[0x67452301, 0xEFCDAB89, 0x98BADCFE, 0x10325476, 0xC3D2E1F0]

/-- The nonlinear function of round t (R144). -/
def roundFun (t : Nat) (b c d : Word) : Word :=
  if t < 20 then (b &&& c) ||| (~~~b &&& d)
  else if t < 40 then b ^^^ c ^^^ d
  else if t < 60 then (b &&& c) ||| (b &&& d) ||| (c &&& d)
  else b ^^^ c ^^^ d

/-- The additive constant of round t (R144). -/
def roundConst (t : Nat) : Word :=
  if t < 20 then 0x5A827999
  else if t < 40 then 0x6ED9EBA1
  else if t < 60 then 0x8F1BBCDC
  else 0xCA62C1D6

/-- Slot i mod 16 of the schedule window. -/
def windowSlot (w : Vector Word 16) (i : Nat) : Word :=
  w[i % 16]'(Nat.mod_lt i (by decide))

/-- The window as round t uses it: from round 16 on, slot t mod 16 is replaced by the XOR of four slots, rotated left
by one bit (R143). -/
def windowStep (t : Nat) (w : Vector Word 16) : Vector Word 16 :=
  if t < 16 then w
  else
    w.set (t % 16)
      (rotl (windowSlot w (t + 13) ^^^ windowSlot w (t + 8) ^^^ windowSlot w (t + 2) ^^^ windowSlot w t) 1)
      (Nat.mod_lt t (by decide))

/-- Round t (R141, R145). -/
def roundStep (t : Nat) (x : Working) : Working :=
  let w := windowStep t x.w
  let tmp := rotl x.a 5 + roundFun t x.b x.c x.d + x.e + roundConst t + windowSlot w t
  { a := tmp, b := x.a, c := rotl x.b 30, d := x.c, e := x.d, t := tmp, w := w }

/-- Rounds 0 .. n−1, in that order. -/
def rounds : Nat → Working → Working
  | 0, x => x
  | n + 1, x => roundStep n (rounds n x)

/-- The start of a compression: W from the block, a..e from H0..H4 (R141, R142). -/
def loadWorking (h : Vector Word 5) (buf : Vector Byte 64) (x : Working) : Working :=
  { x with
    a := h[0], b := h[1], c := h[2], d := h[3], e := h[4]
    w := Vector.ofFn (blockWord buf) }

/-- The feed-forward: each accumulator is increased by its working register (R146). -/
def feedForward (h : Vector Word 5) (x : Working) : Vector Word 5 :=
  #v[h[0] + x.a, h[1] + x.b, h[2] + x.c, h[3] + x.d, h[4] + x.e]

/-- The accumulators after a compression (R141). Irreducible, so that no unification runs 80 rounds by unfolding. -/
@[irreducible] def compressAcc (h : Vector Word 5) (buf : Vector Byte 64) (x : Working) : Vector Word 5 :=
  feedForward h (rounds 80 (loadWorking h buf x))

/-- Compress(): one block, 80 rounds, the feed-forward, and the working registers and window zeroized (R141, R147).
It reads buf and leaves it; Absorb zeroizes it (R137). -/
def compress (e : Engine) : Engine :=
  { e with
    h := compressAcc e.h e.buf e.work
    work := Working.zero }

end Sys2Proof.Machine
end

