-- ==== Sys2Proof/Machine/Flags.lean ====
section
/-! DEFINITION. STATUS and its fields (spec/10_state.md R46 to R48) and the error codes (spec/60_exceptions.md R210). -/

namespace Sys2Proof.Machine

/-- The command errors (R210). -/
inductive CmdError where
  | illegal
  | badlen
  | noinit
  | noseed
  | saltlen
  | overrun
deriving DecidableEq, Repr

/-- The code an error records in ERRCODE (R210). -/
def errorCode : CmdError → BitVec 4
  | .illegal => 1
  | .badlen => 2
  | .noinit => 3
  | .noseed => 4
  | .saltlen => 5
  | .overrun => 6

/-- BUSY is PEND ≠ none (R46). -/
def State.busy (s : State) : Bool := s.pend.isSome

/-- STATUS while BUSY = 0, field by field from bit 31 down, the reserved fields 0 (R48). -/
def statusWord (s : State) : Word :=
  0#3 ++ s.saltlen ++ 0#2 ++ s.eng.bufcnt ++ 0#4 ++ s.errcode ++ 0#3 ++ BitVec.ofBool s.err ++
    BitVec.ofBool s.seeded ++ BitVec.ofBool s.dv ++ BitVec.ofBool s.initd ++ 0#1

/-- STATUS while BUSY = 1: bit 0 reads 1, every other bit as `free` has it (R251). -/
def busyStatus (free : Word) : Word := free ||| 1

end Sys2Proof.Machine
end

