-- ==== Sys2Proof/Machine/Ops.lean ====
section
/-! DEFINITION. The operations the commands share: recording an error and clearing it (spec/60_exceptions.md R212,
R217), Reinit and Absorb (spec/40_hash_engine.md R133, R137), FINAL's padding (R150), the generator's step
(spec/41_salt_generator.md R184), and Reset (spec/70_reset_and_hazards.md R240). -/

namespace Sys2Proof.Machine

/-- raise CmdError(c): ERR is 1 from here on, ERRCODE keeps the first error since CLR_ERR, and nothing else changes
(R212). This is all that "taking an exception" is on this hardware (R213). -/
def raiseError (c : CmdError) (s : State) : State :=
  { s with err := true, errcode := if s.err then s.errcode else errorCode c }

/-- The return from an error: ERR and ERRCODE are cleared, and nothing was saved to be restored (R202, R217). -/
def clearError (s : State) : State := { s with err := false, errcode := 0 }

/-- Reinit(): H <- IV, buf zeroized, both counters 0 (R133). -/
def reinit (e : Engine) : Engine :=
  { e with h := initialAcc, buf := Vector.replicate 64 0, bitcnt := 0, bufcnt := 0 }

/-- Absorb(byte): the byte goes to buf[BUFCNT] and is counted; the byte that fills the buffer runs a compression and
zeroizes the block (R137, R138). -/
def absorb (e : Engine) (b : Byte) : Engine :=
  let e1 := { e with buf := e.buf.set e.bufcnt.toNat b e.bufcnt.isLt, bitcnt := e.bitcnt + 8 }
  if e.bufcnt = 63 then { compress e1 with buf := Vector.replicate 64 0, bufcnt := 0 }
  else { e1 with bufcnt := e.bufcnt + 1 }

/-- Absorb of each byte, in order. -/
def absorbAll (e : Engine) (bs : List Byte) : Engine := bs.foldl absorb e

/-- PADZERO: zero bytes until BITCNT mod 512 = 448 (R150). `none` when `fuel` Absorbs do not get there. -/
def padZero : Nat → Engine → Option Engine
  | 0, e => if e.bitcnt.toNat % 512 = 448 then some e else none
  | fuel + 1, e => if e.bitcnt.toNat % 512 = 448 then some e else padZero fuel (absorb e 0x00)

/-- How many zero bytes PADZERO tries. Each adds 8 bits, so 64 of them meet every multiple of 8 modulo 512, and a
BITCNT that is no multiple of 8 never meets 448 (log 11). -/
def padFuel : Nat := 64

/-- PAD80, PADZERO and LEN: the message length is taken before the padding (R150, R152). -/
def padMessage (e : Engine) : Option Engine :=
  (padZero padFuel (absorb e 0x80)).map fun e1 => absorbAll e1 (lengthBytes e.bitcnt)

/-- The generator's next state (R184). -/
def nextPrng (p : Params) (x : Word) : Word := p.prngA * x + p.prngC

/-- The salt byte of a generator state: 0x20 + (PRNG[30:16] mod 96) (R184). -/
def saltByte (x : Word) : Byte := BitVec.ofNat 8 (0x20 + (x.extractLsb' 16 15).toNat % 96)

/-- The loop of SALT_GEN: bytes 0 .. n−1, each from the next generator state (R183). The pair is the generator's state
and the salt buffer. -/
def fillSalt (p : Params) : Nat → Word × Vector Byte 16 → Word × Vector Byte 16
  | 0, g => g
  | n + 1, g =>
    let g1 := fillSalt p n g
    let x := nextPrng p g1.1
    (x, g1.2.setIfInBounds n (saltByte x))

/-- Reset as an event: every element to its reset value, the unspecified ones to free values (R240, log 2). A pending
command is abandoned. The parameters, the events still to come and what the Host last read are not the core's. -/
def applyReset (s : State) : State :=
  { State.reset with
    eng := { State.reset.eng with h := Config.resetAcc s.freeCount, buf := Config.resetBuf s.freeCount }
    prng := Config.resetPrng s.freeCount
    cfg := s.cfg
    env := s.env
    lastRead := s.lastRead
    freeCount := s.freeCount + 1 }

end Sys2Proof.Machine
end

