-- ==== Sys2Proof/Machine/Bus.lean ====
section
/-! DEFINITION. The Host agent: reads and writes of the register block (spec/20_memory.md R70 to R77,
spec/70_reset_and_hazards.md R250, R251). -/

namespace Sys2Proof.Machine

/-- The registers of the block (R71). -/
inductive Reg where
  | cmd
  | status
  | data
  | bitcntLo
  | bitcntHi
  | digest (i : Fin 5)
  | salt (i : Fin 4)
  | reserved
deriving DecidableEq, Repr

/-- The register map (R71). Every offset it does not list is reserved. -/
def regAt (off : Nat) : Reg :=
  match off with
  | 0x00 => .cmd
  | 0x04 => .status
  | 0x08 => .data
  | 0x10 => .bitcntLo
  | 0x14 => .bitcntHi
  | 0x20 => .digest 0
  | 0x24 => .digest 1
  | 0x28 => .digest 2
  | 0x2C => .digest 3
  | 0x30 => .digest 4
  | 0x40 => .salt 0
  | 0x44 => .salt 1
  | 0x48 => .salt 2
  | 0x4C => .salt 3
  | _ => .reserved

/-- What a read of a register returns while BUSY = 0 (R71). CMD, DATA and the reserved offsets read 0 (R73). -/
def readReg (r : Reg) (s : State) : Word :=
  match r with
  | .cmd => 0
  | .status => statusWord s
  | .data => 0
  | .bitcntLo => s.eng.bitcnt.extractLsb' 0 32
  | .bitcntHi => s.eng.bitcnt.extractLsb' 32 32
  | .digest i => s.digest[i]
  | .salt i => saltWord s.salt i
  | .reserved => 0

/-- What a read of a register returns while BUSY = 1, when the draw is `free` (R251). -/
def readRegBusy (r : Reg) (free : Word) : Word :=
  match r with
  | .cmd => 0
  | .status => busyStatus free
  | .data => 0
  | .bitcntLo => free
  | .bitcntHi => free
  | .digest _ => free
  | .salt _ => free
  | .reserved => 0

/-- A Host read of a register: it changes no state of the core (R73). While BUSY = 1 it takes one fresh draw (R251). -/
def hostReadReg (r : Reg) (s : State) : State :=
  if s.busy then
    { s with lastRead := some (readRegBusy r (Config.busyRead s.freeCount)), freeCount := s.freeCount + 1 }
  else { s with lastRead := some (readReg r s) }

/-- A Host write of a register: CMD submits a command (R74), DATA takes the value (R75), both dropped with OVERRUN
while busy; every other write is ignored (R76). -/
def hostWriteReg (r : Reg) (v : Word) (s : State) : State :=
  match r with
  | .cmd => if s.busy then raiseError .overrun s else { s with pend := some v }
  | .data => if s.busy then raiseError .overrun s else { s with data := v }
  | .status => s
  | .bitcntLo => s
  | .bitcntHi => s
  | .digest _ => s
  | .salt _ => s
  | .reserved => s

/-- An access to a bus address: outside the block it faults (log 9), and one that is not an aligned 32-bit access is
refused (R72). `act` is given the register the address selects. -/
def access (addr : Nat) (size : AccessSize) (s : State) (act : Reg → State) : Host.Outcome State Fault Refusal :=
  if addr < s.cfg.base ∨ s.cfg.base + Params.blockSize ≤ addr then .fault .outsideBlock
  else if size ≠ .word then .refused .narrowAccess
  else if (addr - s.cfg.base) % 4 ≠ 0 then .refused .misaligned
  else .next (act (regAt (addr - s.cfg.base)))

/-- MemRead(addr, size) by the Host. -/
def hostRead (addr : Nat) (size : AccessSize) (s : State) : Host.Outcome State Fault Refusal :=
  access addr size s fun r => hostReadReg r s

/-- MemWrite(addr, size, v) by the Host. -/
def hostWrite (addr : Nat) (size : AccessSize) (v : Word) (s : State) : Host.Outcome State Fault Refusal :=
  access addr size s fun r => hostWriteReg r v s

end Sys2Proof.Machine
end

