-- ==== Sys2Proof/Syntax.lean ====
section
/-! DEFINITION. The seven commands of the hash core (spec/30_encoding.md R103), one constructor per row of
spec/opcode_table.json. -/

namespace Sys2Proof

/-- A command. The count operand N is the unsigned number the encoding's bits 12:8 spell (R101); that it fits them is
`Instr.wellFormed`. -/
inductive Instr where
  /-- NOP, OPC 0x00 (R200). -/
  | nop
  /-- INIT, OPC 0x01 (R131). -/
  | init
  /-- UPDATE n, OPC 0x02 (R134). -/
  | update (n : Nat)
  /-- FINAL, OPC 0x03 (R150). -/
  | final
  /-- SEED, OPC 0x10 (R181). -/
  | seed
  /-- SALT_GEN n, OPC 0x11 (R183). -/
  | saltGen (n : Nat)
  /-- CLR_ERR, OPC 0x20 (R202). -/
  | clrErr
deriving DecidableEq, Repr

end Sys2Proof
end

