-- ==== Sys2Proof/WellFormed.lean ====
section
/-! DEFINITION. Which commands the format can spell: the count operand fits its 5-bit field (spec/30_encoding.md R100).
An out-of-range count (UPDATE 5, SALT_GEN 17) is well formed: it is "a legal encoding with a rejected operand" (R106). -/

namespace Sys2Proof

/-- The count fits the N field, bits 12:8 of the command word (R100). -/
def countFits (n : Nat) : Bool := n < 2 ^ 5

/-- The command has an encoding. -/
def Instr.wellFormed : Instr → Bool
  | .nop => true
  | .init => true
  | .update n => countFits n
  | .final => true
  | .seed => true
  | .saltGen n => countFits n
  | .clrErr => true

end Sys2Proof
end

