-- ==== Sys2Proof/Decode.lean ====
section
/-! DEFINITION. Decoding and encoding of command words (spec/30_encoding.md R100 to R107), total on all 2^32 words. -/

namespace Sys2Proof

/-- Why a word spells no command: the three classes of R105, in the order Execute tests them (R104). Each raises
ILLEGAL. -/
inductive DecodeError where
  /-- RSV ≠ 0. -/
  | reservedBits
  /-- OPC is not in the opcode map. -/
  | reservedOpcode
  /-- N ≠ 0 for an opcode that takes no count. -/
  | nonzeroCount
deriving DecidableEq, Repr

/-- OPC, bits 7:0 (R100). -/
def opcField (w : Word) : BitVec 8 := w.extractLsb' 0 8

/-- N, bits 12:8, as the unsigned number it is (R101). -/
def countField (w : Word) : Nat := (w.extractLsb' 8 5).toNat

/-- RSV, bits 31:13 (R100). -/
def rsvField (w : Word) : BitVec 19 := w.extractLsb' 13 19

/-- A command that takes no count is illegal with N ≠ 0 (R105). -/
def withoutCount (n : Nat) (i : Instr) : Except DecodeError Instr :=
  if n ≠ 0 then .error .nonzeroCount else .ok i

/-- The opcode map (R103). -/
def decodeOpcode (opc n : Nat) : Except DecodeError Instr :=
  match opc with
  | 0x00 => withoutCount n .nop
  | 0x01 => withoutCount n .init
  | 0x02 => .ok (.update n)
  | 0x03 => withoutCount n .final
  | 0x10 => withoutCount n .seed
  | 0x11 => .ok (.saltGen n)
  | 0x20 => withoutCount n .clrErr
  | _ => .error .reservedOpcode

/-- The decoder: the first lines of Execute (R104). -/
def decode (w : Word) : Except DecodeError Instr :=
  if rsvField w ≠ 0 then .error .reservedBits
  else decodeOpcode (opcField w).toNat (countField w)

/-- The OPC value of a command (R103). -/
def Instr.opcode : Instr → BitVec 8
  | .nop => 0x00
  | .init => 0x01
  | .update _ => 0x02
  | .final => 0x03
  | .seed => 0x10
  | .saltGen _ => 0x11
  | .clrErr => 0x20

/-- The count operand of a command, 0 for one that takes none (R100). -/
def Instr.count : Instr → Nat
  | .nop => 0
  | .init => 0
  | .update n => n
  | .final => 0
  | .seed => 0
  | .saltGen n => n
  | .clrErr => 0

/-- The encoder: the word (N << 8) | OPC (R102). -/
def encode (i : Instr) : Word :=
  (BitVec.ofNat 32 i.count <<< 8) ||| i.opcode.zeroExtend 32

/-- The three classes of R107. -/
inductive WordClass where
  /-- A listed command with a legal operand. -/
  | legal
  /-- A listed command with an out-of-range operand (R106). -/
  | outOfRange
  /-- No command (R105). -/
  | illegal
deriving DecidableEq, Repr

/-- The largest legal count of a command (R103's column "legal N"). -/
def Instr.maxCount : Instr → Nat
  | .nop => 0
  | .init => 0
  | .update _ => 4
  | .final => 0
  | .seed => 0
  | .saltGen _ => 16
  | .clrErr => 0

/-- The class of a word (R107). -/
def classify (w : Word) : WordClass :=
  match decode w with
  | .error _ => .illegal
  | .ok i => if i.count ≤ i.maxCount then .legal else .outOfRange

/-- One row of the opcode table: a word spells the row's command when its bits under the mask are the pattern. -/
structure OpcodeRow where
  mnemonic : String
  mask : Word
  pattern : Word
deriving DecidableEq, Repr

/-- The rows of spec/opcode_table.json. -/
def opcodeTable : List OpcodeRow :=
  [ { mnemonic := "NOP", mask := 0xFFFFFFFF, pattern := 0x00000000 },
    { mnemonic := "INIT", mask := 0xFFFFFFFF, pattern := 0x00000001 },
    { mnemonic := "UPDATE", mask := 0xFFFFE0FF, pattern := 0x00000002 },
    { mnemonic := "FINAL", mask := 0xFFFFFFFF, pattern := 0x00000003 },
    { mnemonic := "SEED", mask := 0xFFFFFFFF, pattern := 0x00000010 },
    { mnemonic := "SALT_GEN", mask := 0xFFFFE0FF, pattern := 0x00000011 },
    { mnemonic := "CLR_ERR", mask := 0xFFFFFFFF, pattern := 0x00000020 } ]

/-- The word is one of the row's. -/
def OpcodeRow.covers (r : OpcodeRow) (w : Word) : Bool := w &&& r.mask == r.pattern

/-- A command's name as the opcode table spells it. -/
def Instr.mnemonic : Instr → String
  | .nop => "NOP"
  | .init => "INIT"
  | .update _ => "UPDATE"
  | .final => "FINAL"
  | .seed => "SEED"
  | .saltGen _ => "SALT_GEN"
  | .clrErr => "CLR_ERR"

/-- The command word of a table row's bits: a command is one 32-bit word (R100), so the bits above `nbits` are 0. -/
def tableWord (nbits w : Nat) : Word := BitVec.ofNat 32 (w % 2 ^ nbits)

/-- What the decoder reads from a table row's bits (log 15). -/
def decodeTableWord (nbits w : Nat) : Option Instr :=
  match decode (tableWord nbits w) with
  | .ok i => some i
  | .error _ => none

end Sys2Proof
end

