-- ==== Sys2Proof/Machine/Control.lean ====
section
/-! DEFINITION. NOP and CLR_ERR (spec/42_control.md). -/

namespace Sys2Proof.Machine

/-- NOP (R200). -/
def execNop (s : State) : Host.Outcome State Fault Refusal := .next s

/-- CLR_ERR (R202). -/
def execClrErr (s : State) : Host.Outcome State Fault Refusal := .next (clearError s)

end Sys2Proof.Machine
end

