-- ==== Sys2Proof/Machine/Hash.lean ====
section
/-! DEFINITION. INIT, UPDATE and FINAL (spec/40_hash_engine.md). -/

namespace Sys2Proof.Machine

/-- INIT (R131). -/
def execInit (s : State) : Host.Outcome State Fault Refusal :=
  .next { s with eng := reinit s.eng, initd := true, dv := false, digest := Vector.replicate 5 0 }

/-- UPDATE n (R134): BADLEN before NOINIT; n = 0 changes nothing, not even DATA. -/
def execUpdate (n : Nat) (s : State) : Host.Outcome State Fault Refusal :=
  if 4 < n then .next (raiseError .badlen s)
  else if s.initd = false then .next (raiseError .noinit s)
  else if n = 0 then .next s
  else .next { s with eng := absorbAll s.eng (dataBytes s.data n), data := 0 }

/-- FINAL (R150): the padded message is compressed, the digest stored, the engine re-initialised. The padding loop ends
in every state a run reaches; elsewhere it is the fault of log 11. -/
def execFinal (s : State) : Host.Outcome State Fault Refusal :=
  if s.initd = false then .next (raiseError .noinit s)
  else
    match padMessage s.eng with
    | none => .fault .paddingDiverges
    | some e => .next { s with eng := reinit e, digest := e.h, dv := true }

end Sys2Proof.Machine
end

