-- ==== Sys2Proof/Machine/Salt.lean ====
section
/-! DEFINITION. SEED and SALT_GEN (spec/41_salt_generator.md). -/

namespace Sys2Proof.Machine

/-- SEED (R181). -/
def execSeed (s : State) : Host.Outcome State Fault Refusal :=
  .next { s with prng := s.data, seeded := true, data := 0 }

/-- SALT_GEN n (R183): SALTLEN before NOSEED; the buffer is zeroized, then filled from salt[0]. -/
def execSaltGen (n : Nat) (s : State) : Host.Outcome State Fault Refusal :=
  if 16 < n then .next (raiseError .saltlen s)
  else if s.seeded = false then .next (raiseError .noseed s)
  else
    let g := fillSalt s.cfg n (s.prng, Vector.replicate 16 0)
    .next { s with prng := g.1, salt := g.2, saltlen := BitVec.ofNat 5 n }

end Sys2Proof.Machine
end

