-- ==== Sys2Proof/Machine/Dispatch.lean ====
section
/-! DEFINITION. One arm per command: the case of Execute (spec/30_encoding.md R104). -/

namespace Sys2Proof.Machine

def exec (i : Instr) (s : State) : Host.Outcome State Fault Refusal :=
  match i with
  | .nop => Sys2Proof.Machine.execNop s
  | .init => Sys2Proof.Machine.execInit s
  | .update n => Sys2Proof.Machine.execUpdate n s
  | .final => Sys2Proof.Machine.execFinal s
  | .seed => Sys2Proof.Machine.execSeed s
  | .saltGen n => Sys2Proof.Machine.execSaltGen n s
  | .clrErr => Sys2Proof.Machine.execClrErr s

end Sys2Proof.Machine
end

