-- ==== Sys2Proof/Machine/CoreAgent.lean ====
section
/-! DEFINITION. The Core agent: one pending command, executed as one atomic action (spec/30_encoding.md R104). -/

namespace Sys2Proof.Machine

/-- Execute(w): decode, then the command; a word that spells none raises ILLEGAL (R104, R105). -/
def executeWord (w : Word) (s : State) : Host.Outcome State Fault Refusal :=
  match decode w with
  | .ok i => exec i s
  | .error _ => .next (raiseError .illegal s)

/-- PEND <- none, once Execute has ended (R104). -/
def retire : Host.Outcome State Fault Refusal → Host.Outcome State Fault Refusal
  | .next s => .next { s with pend := none }
  | .fault f => .fault f
  | .refused r => .refused r

/-- CoreStep (R104). It is enabled exactly when PEND ≠ none; where it is not, nothing happens (log 6). -/
def coreStep (s : State) : Host.Outcome State Fault Refusal :=
  match s.pend with
  | none => .next s
  | some w => retire (executeWord w s)

end Sys2Proof.Machine
end

