-- ==== Sys2Proof/Machine/Step.lean ====
section
/-! DEFINITION. One step of the machine: the next event of the total order (spec/20_memory.md R81). -/

namespace Sys2Proof.Machine

/-- One step. The next event acts. When no event is left the Core acts by itself, so an accepted command always
completes (R254), and a core with nothing pending waits (R242). -/
def step (s : State) : Host.Outcome State Fault Refusal :=
  match s.env with
  | [] => coreStep s
  | .coreStep :: rest => coreStep { s with env := rest }
  | .hostRead addr size :: rest => hostRead addr size { s with env := rest }
  | .hostWrite addr size v :: rest => hostWrite addr size v { s with env := rest }
  | .reset :: rest => .next (applyReset { s with env := rest })

/-- The state whose very next step is a Core step that executes this word: PEND holds it, as an accepted CMD write
leaves it (R74), and the Core acts next (log 14). -/
def State.withFetchWord (s : State) (nbits w : Nat) : State :=
  { s with pend := some (tableWord nbits w), env := .coreStep :: s.env }

end Sys2Proof.Machine
end

