-- ==== Sys2Proof/Machine/HostProgram.lean ====
section
/-! DEFINITION. Host programs: the notation of spec/30_encoding.md R109 to R111 and its expansion into bus
transactions. -/

namespace Sys2Proof.Machine

/-- One line of a host program (R109, R110). -/
inductive HostOp where
  /-- WR <reg>, value, the register given by its offset. -/
  | wr (off : Nat) (v : Word)
  /-- RD <reg>. -/
  | rd (off : Nat)
  /-- A command mnemonic: one write to CMD. -/
  | command (i : Instr)
  /-- .word w: any raw word to CMD. -/
  | rawWord (w : Word)
  /-- WDATA v. -/
  | wdata (v : Word)
  /-- WAIT: polls until the pending command, if any, has completed. -/
  | wait
  /-- ABSORB b0 .. bk-1. -/
  | absorb (bs : List Byte)
  /-- HASH bytes. -/
  | hash (bs : List Byte)
deriving DecidableEq, Repr

/-- A bus transaction, with the polling loop of WAIT kept whole: it "is not a fixed number of transactions" (R111). -/
inductive Transaction where
  | wr (off : Nat) (v : Word)
  | rd (off : Nat)
  | poll
deriving DecidableEq, Repr

/-- The offset of CMD (R71). -/
def cmdOffset : Nat := 0x00

/-- The offset of STATUS (R71). -/
def statusOffset : Nat := 0x04

/-- The offset of DATA (R71). -/
def dataOffset : Nat := 0x08

/-- One chunk of ABSORB: WDATA of its bytes padded on the right with zeros to four, UPDATE of their number, WAIT
(R110). -/
def absorbChunk (c : List Byte) : List Transaction :=
  [.wr dataOffset (be32 (c.getD 0 0) (c.getD 1 0) (c.getD 2 0) (c.getD 3 0)),
   .wr cmdOffset (encode (.update c.length)), .poll]

/-- ABSORB: chunks of four consecutive bytes, and a last one of one to three (R110). -/
def absorbTransactions : List Byte → List Transaction
  | [] => []
  | [b0] => absorbChunk [b0]
  | [b0, b1] => absorbChunk [b0, b1]
  | [b0, b1, b2] => absorbChunk [b0, b1, b2]
  | b0 :: b1 :: b2 :: b3 :: bs => absorbChunk [b0, b1, b2, b3] ++ absorbTransactions bs

/-- The expansion of a line (R110). -/
def HostOp.expand : HostOp → List Transaction
  | .wr off v => [.wr off v]
  | .rd off => [.rd off]
  | .command i => [.wr cmdOffset (encode i)]
  | .rawWord w => [.wr cmdOffset w]
  | .wdata v => [.wr dataOffset v]
  | .wait => [.poll]
  | .absorb bs => absorbTransactions bs
  | .hash bs =>
    [.wr cmdOffset (encode .init), .poll] ++ absorbTransactions bs ++ [.wr cmdOffset (encode .final), .poll]

/-- The events of a transaction when each WAIT sees BUSY = 1 `polls` times: the Core steps just before the poll that
sees BUSY = 0 (log 19). -/
def Transaction.events (p : Params) (polls : Nat) : Transaction → List Event
  | .wr off v => [.hostWrite (p.base + off) .word v]
  | .rd off => [.hostRead (p.base + off) .word]
  | .poll =>
    List.replicate polls (.hostRead (p.base + statusOffset) .word) ++
      [.coreStep, .hostRead (p.base + statusOffset) .word]

/-- The events of a host program (R111). -/
def programEvents (p : Params) (polls : Nat) (ops : List HostOp) : List Event :=
  (ops.flatMap HostOp.expand).flatMap (Transaction.events p polls)

end Sys2Proof.Machine
end

