-- ==== Sys2Proof/Machine/Timing.lean ====
section
/-! DEFINITION. The number of compressions a command runs, "the only timing-related quantity the rules fix"
(spec/70_reset_and_hazards.md R255). The model has no time, and no step depends on this. -/

namespace Sys2Proof.Machine

/-- How many of these Absorbs run Compress: those that fill the buffer (R138). -/
def compressionsOf : Engine → List Byte → Nat
  | _, [] => 0
  | e, b :: bs => (if e.bufcnt = 63 then 1 else 0) + compressionsOf (absorb e b) bs

/-- The zero bytes PADZERO absorbs (R150), by the same loop as `padZero`. -/
def padZeros : Nat → Engine → List Byte
  | 0, _ => []
  | fuel + 1, e => if e.bitcnt.toNat % 512 = 448 then [] else 0x00 :: padZeros fuel (absorb e 0x00)

/-- The compressions of FINAL's padding: those of the bytes it absorbs, none where it does not end (log 11). -/
def padCompressions (e : Engine) : Nat :=
  match padMessage e with
  | none => 0
  | some _ => compressionsOf e (0x80 :: padZeros padFuel (absorb e 0x80) ++ lengthBytes e.bitcnt)

/-- The compressions a command runs in a state (R255); a rejected command runs none (R212). -/
def compressions (i : Instr) (s : State) : Nat :=
  match i with
  | .nop => 0
  | .init => 0
  | .update n => if n ≤ 4 ∧ s.initd = true then compressionsOf s.eng (dataBytes s.data n) else 0
  | .final => if s.initd = true then padCompressions s.eng else 0
  | .seed => 0
  | .saltGen _ => 0
  | .clrErr => 0

end Sys2Proof.Machine
end

