-- ==== Sys2Proof/Sha1Spec.lean ====
section
/-! DEFINITION. What the engine is to compute, written without its buffer, counters and window: the message schedule of
spec/40_hash_engine.md R148, the compression of one block, and the digest of a whole padded message (R151, R153). The
round functions, constants and initial values are those of R132 and R144. -/

namespace Sys2Proof.Sha1

open Sys2Proof.Machine

/-- The schedule words of a block: its 16 words and `n` more, each by the unrolled form of R148. -/
def schedule (block : Vector Byte 64) : Nat → List Word
  | 0 => (List.finRange 16).map (blockWord block)
  | n + 1 =>
    let ws := schedule block n
    ws ++ [rotl (ws.getD (n + 13) 0 ^^^ ws.getD (n + 8) 0 ^^^ ws.getD (n + 2) 0 ^^^ ws.getD n 0) 1]

/-- Wt for t in 0..79. -/
@[irreducible] def scheduleWord (block : Vector Byte 64) (t : Nat) : Word := (schedule block 64).getD t 0

/-- The five working words. -/
structure Five where
  a : Word
  b : Word
  c : Word
  d : Word
  e : Word
deriving DecidableEq, Repr

/-- The working words after rounds 0 .. n−1 (R145). -/
def fiveAfter (h : Vector Word 5) (block : Vector Byte 64) : Nat → Five
  | 0 => { a := h[0], b := h[1], c := h[2], d := h[3], e := h[4] }
  | t + 1 =>
    let x := fiveAfter h block t
    { a := rotl x.a 5 + roundFun t x.b x.c x.d + x.e + roundConst t + scheduleWord block t
      b := x.a
      c := rotl x.b 30
      d := x.c
      e := x.d }

/-- One block folded into the chaining value (R146). -/
@[irreducible] def blockStep (h : Vector Word 5) (block : Vector Byte 64) : Vector Word 5 :=
  let x := fiveAfter h block 80
  #v[h[0] + x.a, h[1] + x.b, h[2] + x.c, h[3] + x.d, h[4] + x.e]

/-- Bytes 64k .. 64k+63 of a byte sequence, zero past its end. -/
@[irreducible] def blockAt (m : List Byte) (k : Nat) : Vector Byte 64 := Vector.ofFn fun i : Fin 64 => m.getD (64 * k + i.val) 0

/-- The chaining value after the first k blocks of a byte sequence, from the initial values. -/
def chain (m : List Byte) : Nat → Vector Word 5
  | 0 => initialAcc
  | k + 1 => blockStep (chain m k) (blockAt m k)

/-- The padded message: m, 0x80, zero bytes, and the bit length modulo 2^64 (R151, R154). -/
def padded (m : List Byte) : List Byte :=
  m ++ paddingBytes (m.length % 64) (BitVec.ofNat 64 (8 * m.length))

/-- The digest of a message: the chaining value after every block of the padded message (R153). -/
def digest (m : List Byte) : Vector Word 5 := chain (padded m) ((padded m).length / 64)

end Sys2Proof.Sha1
end

