-- ==== Sys2Proof/Safety.lean ====
section
/-! DEFINITION. The terms claims are stated in: accesses the spec defines, the invariant of the machine, the message an
engine holds, and short runs of commands. -/

namespace Sys2Proof.Machine

/-- The address is an aligned word of the register block, and the access is 32 bits wide (R72). -/
def accessDefined (p : Params) (addr : Nat) (size : AccessSize) : Bool :=
  decide (p.base ≤ addr) && decide (addr < p.base + Params.blockSize) && decide (size = .word) &&
    decide ((addr - p.base) % 4 = 0)

/-- An event to which the spec gives an effect. -/
def Event.defined (p : Params) : Event → Bool
  | .hostRead addr size => accessDefined p addr size
  | .hostWrite addr size _ => accessDefined p addr size
  | .coreStep => true
  | .reset => true

/-- Every event still to come is one the spec defines: a safe run. -/
def State.envDefined (s : State) : Bool := s.env.all (Event.defined s.cfg)

/-- R51(a) to (c): what holds of a READY engine between commands. -/
structure EngineReady (e : Engine) : Prop where
  whole_bytes : e.bitcnt.toNat % 8 = 0
  bufcnt_eq : e.bufcnt.toNat = e.bitcnt.toNat / 8 % 64
  rest_zero : ∀ i : Fin 64, e.bufcnt.toNat ≤ i.val → e.buf[i] = 0

/-- What every step keeps. -/
structure Invariant (s : State) : Prop where
  /-- The working registers and the window are 0 between Core steps (R33, R34). -/
  work_zero : s.eng.work = Working.zero
  /-- READY (R51). -/
  ready : s.initd = true → EngineReady s.eng
  /-- NOINIT: nothing is absorbed before INIT (R50). -/
  noinit_empty : s.initd = false → s.eng.bitcnt = 0 ∧ s.eng.bufcnt = 0
  /-- A digest is valid only once the engine has been initialised (R40). -/
  noinit_dv : s.initd = false → s.dv = false
  /-- Without a valid digest the DIGEST registers are 0 (R39, R40). -/
  digest_zero : s.dv = false → s.digest = Vector.replicate 5 0
  /-- While ERR = 0, ERRCODE = 0 (R47). -/
  no_error : s.err = false → s.errcode = 0
  /-- While ERR = 1, ERRCODE is one of the six codes: 7..15 are never produced (R210). -/
  error_code : s.err = true → 1 ≤ s.errcode.toNat ∧ s.errcode.toNat ≤ 6
  /-- No salt is produced before SEED (R42). -/
  unseeded : s.seeded = false → s.saltlen = 0
  /-- SALTLEN is 0..16 (R44). -/
  saltlen_le : s.saltlen.toNat ≤ 16
  /-- Every salt byte produced lies in the band (R185). -/
  salt_band : ∀ j : Fin 16, j.val < s.saltlen.toNat → 0x20 ≤ s.salt[j].toNat ∧ s.salt[j].toNat ≤ 0x7F
  /-- Bytes salt[n..15] read 0 (R183). -/
  salt_rest : ∀ j : Fin 16, s.saltlen.toNat ≤ j.val → s.salt[j] = 0

/-- The engine holds the message m: exactly m has been absorbed since the last INIT or FINAL (R36, R37, R51(d), (e)). -/
structure Represents (e : Engine) (m : List Byte) : Prop where
  bitcnt_eq : e.bitcnt = BitVec.ofNat 64 (8 * m.length)
  bufcnt_eq : e.bufcnt = BitVec.ofNat 6 m.length
  buf_eq : e.buf = Sha1.blockAt m (m.length / 64)
  h_eq : e.h = Sha1.chain m (m.length / 64)

/-- An initialised engine holds some message. -/
def HoldsMessage (s : State) : Prop := s.initd = true → ∃ m, Represents s.eng m

/-- Commands one after the other, each as exec gives it. -/
def runCommands : List Instr → State → Host.Outcome State Fault Refusal
  | [], s => .next s
  | i :: is, s =>
    match exec i s with
    | .next t => runCommands is t
    | .fault f => .fault f
    | .refused r => .refused r

/-- A message fed in chunks: for each (v, n), DATA takes v and UPDATE n runs. -/
def feed : List (Word × Nat) → State → Host.Outcome State Fault Refusal
  | [], s => .next s
  | (v, n) :: us, s =>
    match exec (.update n) { s with data := v } with
    | .next t => feed us t
    | .fault f => .fault f
    | .refused r => .refused r

/-- The bytes a sequence of chunks delivers. -/
def fedBytes (us : List (Word × Nat)) : List Byte := us.flatMap fun u => dataBytes u.1 u.2

/-- The state without its error record. -/
def State.withoutError (s : State) : State := { s with err := false, errcode := 0 }

/-- The two states differ at most in what is unspecified after reset and not yet written: H and buf while INITD = 0,
PRNG while SEEDED = 0 (R241). -/
structure SameObservable (s t : State) : Prop where
  rest_eq : t = { s with eng := { s.eng with h := t.eng.h, buf := t.eng.buf }, prng := t.prng }
  engine_eq : s.initd = true → t.eng = s.eng
  prng_eq : s.seeded = true → t.prng = s.prng

end Sys2Proof.Machine
end

