-- ==== Sys2Proof/Certificates/Slice0/Obligations.lean ====
section
/-! DEFINITION. The statements for the provers, from the numbered rules of spec/. -/

open Sys2Proof Sys2Proof.Machine

/-! ### Encoding -/

/-- R100 to R103: the decoder reads every encodable command back from its word. -/
def Obligations.DecodeOfEncodeIsTheCommand : Prop :=
  ∀ i : Instr, i.wellFormed = true → decode (encode i) = .ok i

/-- R102, R107: a word the decoder accepts is the encoding of the command it reads, so no word spells two commands and
no bit is dropped. -/
def Obligations.EncodeOfDecodedWordIsTheWord : Prop :=
  ∀ (w : Word) (i : Instr), decode w = .ok i → i.wellFormed = true ∧ encode i = w

/-- R105: the illegal words are exactly the three classes, the reserved OPC values are the listed ranges, and
executing an illegal word raises ILLEGAL (code 1) and has no other effect. -/
def Obligations.IllegalWordsAreTheThreeClasses : Prop :=
  (∀ w : Word,
    (∃ r, decode w = .error r) ↔
      (w.extractLsb' 13 19 ≠ 0 ∨
        w.extractLsb' 0 8 ∉ ([0x00, 0x01, 0x02, 0x03, 0x10, 0x11, 0x20] : List (BitVec 8)) ∨
        (w.extractLsb' 8 5 ≠ 0 ∧ w.extractLsb' 0 8 ≠ 0x02 ∧ w.extractLsb' 0 8 ≠ 0x11))) ∧
  (∀ opc : BitVec 8,
    opc ∉ ([0x00, 0x01, 0x02, 0x03, 0x10, 0x11, 0x20] : List (BitVec 8)) ↔
      ((0x04 ≤ opc.toNat ∧ opc.toNat ≤ 0x0F) ∨ (0x12 ≤ opc.toNat ∧ opc.toNat ≤ 0x1F) ∨
        (0x21 ≤ opc.toNat ∧ opc.toNat ≤ 0xFF))) ∧
  (∀ (w : Word) (r : DecodeError) (s : State), decode w = .error r →
    executeWord w s = .next { s with err := true, errcode := if s.err then s.errcode else 1 })

/-- R106: UPDATE with N in 5..31 and SALT_GEN with N in 17..31 are legal encodings with a rejected operand: they decode
as the command and raise BADLEN (code 2) and SALTLEN (code 5), with no other effect. -/
def Obligations.OutOfRangeCountsAreRejected : Prop :=
  ∀ s : State,
    (∀ n : Nat, 5 ≤ n → n ≤ 31 →
      decode (BitVec.ofNat 32 (n * 256 + 0x02)) = .ok (.update n) ∧
      executeWord (BitVec.ofNat 32 (n * 256 + 0x02)) s =
        .next { s with err := true, errcode := if s.err then s.errcode else 2 }) ∧
    (∀ n : Nat, 17 ≤ n → n ≤ 31 →
      decode (BitVec.ofNat 32 (n * 256 + 0x11)) = .ok (.saltGen n) ∧
      executeWord (BitVec.ofNat 32 (n * 256 + 0x11)) s =
        .next { s with err := true, errcode := if s.err then s.errcode else 5 })

/-- The opcode table (R103) and the decoder agree: an accepted word lies in exactly one row, that of the command it
decodes to, and an illegal word lies in none. -/
def Obligations.DecoderAgreesWithTheOpcodeTable : Prop :=
  ∀ w : Word,
    (∀ i, decode w = .ok i → (opcodeTable.filter (·.covers w)).map (·.mnemonic) = [i.mnemonic]) ∧
    (∀ r, decode w = .error r → opcodeTable.filter (·.covers w) = [])

/-- Words written out in the spec's own tables (R103's examples, and the encoding vectors of 95_test_vectors.md)
decode to the commands they stand for. -/
def Obligations.SpecWordsDecodeAsWritten : Prop :=
  decode 0x00000000 = .ok .nop ∧ decode 0x00000001 = .ok .init ∧ decode 0x00000302 = .ok (.update 3) ∧
  decode 0x00000003 = .ok .final ∧ decode 0x00000010 = .ok .seed ∧ decode 0x00001011 = .ok (.saltGen 16) ∧
  decode 0x00000020 = .ok .clrErr ∧ decode 0x00001F02 = .ok (.update 31) ∧
  decode 0x00000004 = .error .reservedOpcode ∧ decode 0x00000101 = .error .nonzeroCount ∧
  decode 0x00002102 = .error .reservedBits ∧ decode 0xFFFFFFFF = .error .reservedBits

/-! ### The Core agent and errors -/

/-- R104: a Core step with PEND = some w decodes w, runs exec of the decoded command and sets PEND to none; a word that
spells no command records ILLEGAL and sets PEND to none. Step runs it when the Core's turn comes or no event is left
(the event list, and the idle step with PEND = none, are the model's own choice: log 5, log 6). -/
def Obligations.StepRunsTheDecodedCommand : Prop :=
  ∀ (s : State) (w : Word) (rest : List Event), s.pend = some w →
    (∀ i, decode w = .ok i →
      (∀ t, exec i s = .next t → coreStep s = .next { t with pend := none }) ∧
      (∀ f, exec i s = .fault f → coreStep s = .fault f) ∧
      (∀ r, exec i s = .refused r → coreStep s = .refused r)) ∧
    (∀ r, decode w = .error r →
      coreStep s = .next { s with pend := none, err := true, errcode := if s.err then s.errcode else 1 }) ∧
    (s.env = [] → step s = coreStep s) ∧
    (s.env = .coreStep :: rest → step s = coreStep { s with env := rest }) ∧
    (∀ n v : Nat, (s.withFetchWord n v).pend = some (BitVec.ofNat 32 (v % 2 ^ n)) ∧
      step (s.withFetchWord n v) = coreStep { s with pend := some (BitVec.ofNat 32 (v % 2 ^ n)) })

/-- R81 in the model's own form (log 5): step gives the next event of the total order to its agent, and with no event
left and nothing pending the machine waits unchanged (log 6). -/
def Obligations.StepTakesTheNextEvent : Prop :=
  ∀ (s : State) (rest : List Event),
    (∀ addr size, s.env = .hostRead addr size :: rest → step s = hostRead addr size { s with env := rest }) ∧
    (∀ addr size v, s.env = .hostWrite addr size v :: rest → step s = hostWrite addr size v { s with env := rest }) ∧
    (s.env = .reset :: rest → step s = .next (applyReset { s with env := rest })) ∧
    (s.env = [] → s.pend = none → step s = .next s) ∧
    (s.env = .coreStep :: rest → s.pend = none → step s = .next { s with env := rest })

/-- R215: the first error in the order ILLEGAL, operand range, state is the one raised, nothing else changes, and a
command none of whose checks fails records no error (CLR_ERR clears it). -/
def Obligations.CommandErrorsFollowThePriorityOrder : Prop :=
  ∀ (w : Word) (s : State),
    let opc := w.extractLsb' 0 8
    let n := (w.extractLsb' 8 5).toNat
    let illegal := w.extractLsb' 13 19 ≠ 0 ∨
      opc ∉ ([0x00, 0x01, 0x02, 0x03, 0x10, 0x11, 0x20] : List (BitVec 8)) ∨ (n ≠ 0 ∧ opc ≠ 0x02 ∧ opc ≠ 0x11)
    let badlen := opc = 0x02 ∧ 5 ≤ n
    let saltlen := opc = 0x11 ∧ 17 ≤ n
    let noinit := (opc = 0x02 ∨ opc = 0x03) ∧ s.initd = false
    let noseed := opc = 0x11 ∧ s.seeded = false
    let record := fun c : BitVec 4 => { s with err := true, errcode := if s.err then s.errcode else c }
    (illegal → executeWord w s = .next (record 1)) ∧
    (¬illegal → badlen → executeWord w s = .next (record 2)) ∧
    (¬illegal → saltlen → executeWord w s = .next (record 5)) ∧
    (¬illegal → ¬badlen → noinit → executeWord w s = .next (record 3)) ∧
    (¬illegal → ¬saltlen → noseed → executeWord w s = .next (record 4)) ∧
    (¬illegal → ¬badlen → ¬saltlen → ¬noinit → ¬noseed → ∀ t, executeWord w s = .next t →
      if opc = 0x20 then t.err = false ∧ t.errcode = 0 else t.err = s.err ∧ t.errcode = s.errcode)

/-- R214: an error does not block later commands: two states that differ only in ERR and ERRCODE run every command to
the same state but for ERR and ERRCODE, or stop the same way. -/
def Obligations.ErrorsDoNotBlockCommands : Prop :=
  ∀ (i : Instr) (s s' : State), s.withoutError = s'.withoutError →
    (∀ t, exec i s = .next t → ∃ t', exec i s' = .next t' ∧ t.withoutError = t'.withoutError) ∧
    (∀ f, exec i s = .fault f → exec i s' = .fault f) ∧
    (∀ r, exec i s = .refused r → exec i s' = .refused r)

/-- No command touches PEND inside Execute, the parameters, the events still to come, what the Host last read, or the
counter of the free values; and each piece of the rest is written only by the commands the spec names for it
(R32, R39 to R45, R47). -/
def Obligations.CommandsWriteOnlyWhatTheSpecNames : Prop :=
  ∀ (i : Instr) (s t : State), exec i s = .next t →
    t.pend = s.pend ∧ t.cfg = s.cfg ∧ t.env = s.env ∧ t.lastRead = s.lastRead ∧ t.freeCount = s.freeCount ∧
    (i ≠ .init → i ≠ .final → (∀ n, i ≠ .update n) → t.eng = s.eng) ∧
    (i ≠ .init → t.initd = s.initd) ∧
    (i ≠ .init → i ≠ .final → t.digest = s.digest ∧ t.dv = s.dv) ∧
    (i ≠ .seed → t.seeded = s.seeded) ∧
    (i ≠ .seed → (∀ n, i ≠ .saltGen n) → t.prng = s.prng) ∧
    ((∀ n, i ≠ .saltGen n) → t.salt = s.salt ∧ t.saltlen = s.saltlen) ∧
    (i ≠ .seed → (∀ n, i ≠ .update n) → t.data = s.data) ∧
    (i ≠ .clrErr → s.err = true → t.err = true ∧ t.errcode = s.errcode)

/-! ### The commands -/

/-- R200: NOP, word 0, completes and changes nothing; a pending NOP holds BUSY until its Core step clears PEND; any
other word with its OPC is ILLEGAL; a NOP written while BUSY = 1 is dropped with OVERRUN. -/
def Obligations.NopDoesNothing : Prop :=
  encode .nop = 0x00000000 ∧
  (∀ s : State, exec .nop s = .next s) ∧
  (∀ (w : Word) (s : State), w.extractLsb' 0 8 = 0 → w ≠ 0 →
    executeWord w s = .next { s with err := true, errcode := if s.err then s.errcode else 1 }) ∧
  (∀ s : State, s.pend = none → ∃ t, hostWrite (s.cfg.base + 0x00) .word 0x00000000 s = .next t ∧
    t.busy = true ∧ coreStep t = .next s) ∧
  (∀ (s : State) (v : Word), s.pend = some v →
    hostWrite (s.cfg.base + 0x00) .word 0x00000000 s =
      .next { s with err := true, errcode := if s.err then s.errcode else 6 })

/-- R131 (with R132 and R133): INIT completes in every state; it loads H, zeroizes buf and both counters, sets INITD,
clears DV, zeroizes DIGEST, and leaves everything else. -/
def Obligations.InitStartsANewMessage : Prop :=
  encode .init = 0x00000001 ∧
  (∀ s : State, exec .init s = .next
    { s with
      eng := { s.eng with
        h := #v[0x67452301, 0xEFCDAB89, 0x98BADCFE, 0x10325476, 0xC3D2E1F0]
        buf := Vector.replicate 64 0
        bitcnt := 0
        bufcnt := 0 }
      initd := true
      dv := false
      digest := Vector.replicate 5 0 }) ∧
  (∀ (w : Word) (s : State), w.extractLsb' 0 8 = 0x01 → w ≠ 0x00000001 →
    executeWord w s = .next { s with err := true, errcode := if s.err then s.errcode else 1 }) ∧
  (∀ t, exec .init State.reset = .next t → statusWord t = 0x00000002 ∧ t.eng.bitcnt = 0)

/-- R134: UPDATE n absorbs the first n bytes of DATA, DATA[31:24] first, adds n to BUFCNT modulo 64 and 8n to BITCNT
modulo 2^64, and zeroizes DATA; n = 0 changes nothing; BADLEN is checked before NOINIT; everything else is left. -/
def Obligations.UpdateAbsorbsDataBytes : Prop :=
  ∀ (s : State) (n : Nat),
    (n ≤ 31 → encode (.update n) = BitVec.ofNat 32 n <<< 8 ||| 0x02) ∧
    (5 ≤ n → exec (.update n) s = .next { s with err := true, errcode := if s.err then s.errcode else 2 }) ∧
    (n ≤ 4 → s.initd = false →
      exec (.update n) s = .next { s with err := true, errcode := if s.err then s.errcode else 3 }) ∧
    (n = 0 → s.initd = true → exec (.update n) s = .next s) ∧
    (1 ≤ n → n ≤ 4 → s.initd = true → ∃ e : Engine,
      exec (.update n) s = .next { s with eng := e, data := 0 } ∧
      e = ([s.data.extractLsb' 24 8, s.data.extractLsb' 16 8, s.data.extractLsb' 8 8,
            s.data.extractLsb' 0 8].take n).foldl absorb s.eng ∧
      e.bufcnt.toNat = (s.eng.bufcnt.toNat + n) % 64 ∧
      e.bitcnt = s.eng.bitcnt + BitVec.ofNat 64 (8 * n)) ∧
    (∀ w : Word, w.extractLsb' 0 8 = 0x02 → w.extractLsb' 13 19 ≠ 0 →
      executeWord w s = .next { s with err := true, errcode := if s.err then s.errcode else 1 }) ∧
    (∀ t u, exec .init State.reset = .next t → exec (.update 3) { t with data := 0x61626300 } = .next u →
      u.eng.bufcnt = 3 ∧ u.eng.bitcnt = 24 ∧ u.data = 0 ∧ statusWord u = 0x00030002)

/-- R150, R152: on a READY engine (R51, the invariant's part) FINAL absorbs 0x80, the (55 − BUFCNT) mod 64 zero bytes
its loop takes, and the message's bit length, most significant byte first, stores H in DIGEST, sets DV, re-initialises
the engine, and leaves everything else; without INIT it raises NOINIT. -/
def Obligations.FinalPadsAndStoresTheDigest : Prop :=
  encode .final = 0x00000003 ∧
  (∀ (w : Word) (s : State), w.extractLsb' 0 8 = 0x03 → w ≠ 0x00000003 →
    executeWord w s = .next { s with err := true, errcode := if s.err then s.errcode else 1 }) ∧
  (∀ t u v, exec .init State.reset = .next t → exec (.update 3) { t with data := 0x61626300 } = .next u →
    exec .final u = .next v →
    v.digest = #v[0xa9993e36, 0x4706816a, 0xba3e2571, 0x7850c26c, 0x9cd0d89d] ∧ statusWord v = 0x00000006) ∧
  ∀ s : State,
    (s.initd = false →
      exec .final s = .next { s with err := true, errcode := if s.err then s.errcode else 3 }) ∧
    (s.initd = true → EngineReady s.eng → ∃ e : Engine,
      e = absorbAll s.eng
        (0x80 :: List.replicate ((119 - s.eng.bufcnt.toNat) % 64) 0x00 ++
          [s.eng.bitcnt.extractLsb' 56 8, s.eng.bitcnt.extractLsb' 48 8, s.eng.bitcnt.extractLsb' 40 8,
           s.eng.bitcnt.extractLsb' 32 8, s.eng.bitcnt.extractLsb' 24 8, s.eng.bitcnt.extractLsb' 16 8,
           s.eng.bitcnt.extractLsb' 8 8, s.eng.bitcnt.extractLsb' 0 8]) ∧
      exec .final s = .next
        { s with
          eng := { e with
            h := #v[0x67452301, 0xEFCDAB89, 0x98BADCFE, 0x10325476, 0xC3D2E1F0]
            buf := Vector.replicate 64 0
            bitcnt := 0
            bufcnt := 0 }
          digest := e.h
          dv := true })

/-- R181: SEED completes in every state, moves DATA to PRNG, sets SEEDED, zeroizes DATA, and leaves everything
else. -/
def Obligations.SeedLoadsTheGenerator : Prop :=
  encode .seed = 0x00000010 ∧
  (∀ s : State, exec .seed s = .next { s with prng := s.data, seeded := true, data := 0 }) ∧
  (∀ (w : Word) (s : State), w.extractLsb' 0 8 = 0x10 → w ≠ 0x00000010 →
    executeWord w s = .next { s with err := true, errcode := if s.err then s.errcode else 1 }) ∧
  (∀ t, exec .seed { State.reset with data := 1 } = .next t → t.seeded = true ∧ statusWord t = 0x00000008)

/-- R183 and R184: SALT_GEN n advances the generator n times, salt byte j is 0x20 + (state j+1)[30:16] mod 96 for
j < n and 0 from n on, SALTLEN is n, and everything else is left; SALTLEN is checked before NOSEED. Stated for every
PRNG_A and PRNG_C; the example is for the spec's defaults. -/
def Obligations.SaltGenFillsTheBuffer : Prop :=
  ∀ (s : State) (n : Nat),
    (n ≤ 31 → encode (.saltGen n) = BitVec.ofNat 32 n <<< 8 ||| 0x11) ∧
    (17 ≤ n → exec (.saltGen n) s = .next { s with err := true, errcode := if s.err then s.errcode else 5 }) ∧
    (n ≤ 16 → s.seeded = false →
      exec (.saltGen n) s = .next { s with err := true, errcode := if s.err then s.errcode else 4 }) ∧
    (n ≤ 16 → s.seeded = true → ∃ salt : Vector Byte 16,
      exec (.saltGen n) s = .next
        { s with
          prng := (fun x => s.cfg.prngA * x + s.cfg.prngC)^[n] s.prng
          salt := salt
          saltlen := BitVec.ofNat 5 n } ∧
      ∀ j : Fin 16, salt[j] =
        if j.val < n then
          BitVec.ofNat 8
            (0x20 + (((fun x => s.cfg.prngA * x + s.cfg.prngC)^[j.val + 1] s.prng).extractLsb' 16 15).toNat % 96)
        else 0) ∧
    (∀ w : Word, w.extractLsb' 0 8 = 0x11 → w.extractLsb' 13 19 ≠ 0 →
      executeWord w s = .next { s with err := true, errcode := if s.err then s.errcode else 1 }) ∧
    (∀ t u, exec .seed { State.reset with cfg := Config.defaults, data := 1 } = .next t →
      exec (.saltGen 8) t = .next u →
      saltWord u.salt 0 = 0x467E414B ∧ saltWord u.salt 1 = 0x4B5B623B ∧ saltWord u.salt 2 = 0 ∧
      saltWord u.salt 3 = 0 ∧ statusWord u = 0x08000008)

/-- R202: CLR_ERR completes in every state, clears ERR and ERRCODE, and leaves everything else; a malformed CLR_ERR
word raises ILLEGAL and does not clear. -/
def Obligations.ClrErrClearsTheError : Prop :=
  encode .clrErr = 0x00000020 ∧
  (∀ s : State, exec .clrErr s = .next { s with err := false, errcode := 0 }) ∧
  (∀ (w : Word) (s : State), w.extractLsb' 0 8 = 0x20 → w ≠ 0x00000020 →
    executeWord w s = .next { s with err := true, errcode := if s.err then s.errcode else 1 }) ∧
  (∀ (s : State) (v : Word), s.pend = some 0x00000020 →
    ∃ t, hostWrite (s.cfg.base + 0x00) .word v s = .next t ∧ t.err = true ∧ t.pend = some 0x00000020 ∧
      coreStep t = .next { s with pend := none, err := false, errcode := 0 }) ∧
  (∀ t u, exec (.update 1) State.reset = .next t → exec .clrErr t = .next u →
    statusWord t = 0x00000310 ∧ statusWord u = 0x00000000)

/-! ### The engine -/

/-- R137: Absorb writes the byte at BUFCNT and adds 8 to BITCNT; below 63 it increments BUFCNT and nothing else; at 63
it compresses the filled block, zeroizes the buffer and BUFCNT. -/
def Obligations.AbsorbAppendsOneByte : Prop :=
  ∀ (e : Engine) (b : Byte),
    (e.bufcnt.toNat < 63 → ∃ buf : Vector Byte 64,
      absorb e b = { e with buf := buf, bitcnt := e.bitcnt + 8, bufcnt := e.bufcnt + 1 } ∧
      (absorb e b).bufcnt.toNat = e.bufcnt.toNat + 1 ∧
      ∀ i : Fin 64, buf[i] = if i.val = e.bufcnt.toNat then b else e.buf[i]) ∧
    (e.bufcnt.toNat = 63 → ∃ full : Engine,
      full.h = e.h ∧ (∀ i : Fin 64, full.buf[i] = if i.val = 63 then b else e.buf[i]) ∧
      absorb e b = { e with
        h := (compress full).h
        work := Working.zero
        buf := Vector.replicate 64 0
        bitcnt := e.bitcnt + 8
        bufcnt := 0 })

/-- R140 to R149: Compress, written with a 16-word window, is the compression of the block with the unrolled schedule;
it leaves buf and the counters and zeroizes the working registers and the window. -/
def Obligations.CompressIsTheBlockFunction : Prop :=
  ∀ e : Engine,
    compress e = { e with h := Sha1.blockStep e.h e.buf, work := Working.zero }

/-- R148: after round t, slot t mod 16 of the window holds the unrolled schedule word Wt, for every round and every
block. -/
def Obligations.WindowHoldsTheUnrolledSchedule : Prop :=
  ∀ (h : Vector Word 5) (buf : Vector Byte 64) (x : Working) (t : Nat), t < 80 →
    windowSlot (rounds (t + 1) (loadWorking h buf x)).w t = Sha1.scheduleWord buf t

/-- R142: the first 16 round inputs are the block's big-endian words, buf[4i] in bits [31:24]. -/
def Obligations.BlockWordsAreBigEndian : Prop :=
  ∀ (h : Vector Word 5) (buf : Vector Byte 64) (x : Working) (i : Fin 16),
    let w := (loadWorking h buf x).w[i]
    w.extractLsb' 24 8 = buf[4 * i.val] ∧ w.extractLsb' 16 8 = buf[4 * i.val + 1] ∧
    w.extractLsb' 8 8 = buf[4 * i.val + 2] ∧ w.extractLsb' 0 8 = buf[4 * i.val + 3]

/-- R135: byte k of an UPDATE is DATA[31−8k : 24−8k], and at BUFCNT mod 4 = 0 an UPDATE 4 of v puts v, unchanged, in
the block as one schedule input word (in the buffer, or, when it fills the block, in the block that is compressed). -/
def Obligations.AlignedUpdateWordIsAScheduleWord : Prop :=
  (∀ (v : Word) (n : Nat), n ≤ 4 → dataBytes v n =
    (List.range n).map fun k => v.extractLsb' (24 - 8 * k) 8) ∧
  (∀ (e : Engine) (v : Word) (i : Fin 15), e.bufcnt.toNat = 4 * i.val →
    blockWord (absorbAll e (dataBytes v 4)).buf (Fin.castSucc i) = v) ∧
  (∀ (e : Engine) (v : Word), e.bufcnt.toNat = 60 → ∃ block : Vector Byte 64,
    (absorbAll e (dataBytes v 4)).h = Sha1.blockStep e.h block ∧ blockWord block 15 = v ∧
    ∀ i : Fin 60, block[i.val] = e.buf[i.val])

/-- R136: two ways of cutting the same bytes into UPDATEs leave the same H, buf, BUFCNT and BITCNT. -/
def Obligations.StreamingEquivalence : Prop :=
  ∀ (s : State) (us vs : List (Word × Nat)), s.initd = true →
    (∀ u ∈ us, u.2 ≤ 4) → (∀ v ∈ vs, v.2 ≤ 4) → fedBytes us = fedBytes vs →
    ∃ t t', feed us s = .next t ∧ feed vs s = .next t' ∧
      t.eng.h = t'.eng.h ∧ t.eng.buf = t'.eng.buf ∧ t.eng.bufcnt = t'.eng.bufcnt ∧ t.eng.bitcnt = t'.eng.bitcnt

/-- R151: on a READY engine the padding loop ends, FINAL's Absorbs are those of the padding law, they end on a block
boundary (BUFCNT = 0, BITCNT a multiple of 512), and they run one compression if BUFCNT ≤ 55 and two otherwise. -/
def Obligations.PaddingEndsOnABlockBoundary : Prop :=
  ∀ e : Engine, EngineReady e →
    ∃ p : Engine, padMessage e = some p ∧
      p = absorbAll e (paddingBytes e.bufcnt.toNat e.bitcnt) ∧
      p.bufcnt = 0 ∧ p.bitcnt.toNat % 512 = 0 ∧
      compressionsOf e (paddingBytes e.bufcnt.toNat e.bitcnt) = if e.bufcnt.toNat ≤ 55 then 1 else 2

/-- R255, of exec: an accepted UPDATE n leaves H when BUFCNT + n < 64 and otherwise folds one block into it, the one its
first 64 − BUFCNT bytes fill; FINAL on a READY engine stores H with one block folded in when BUFCNT ≤ 55 and with two
otherwise; a rejected command leaves the engine, INIT loads the initial values, and no other command touches the
engine. `compressions`, the model's count, agrees with each. -/
def Obligations.CompressionsPerCommand : Prop :=
  ∀ s : State,
    (∀ n, n ≤ 4 → s.initd = true → s.eng.bufcnt.toNat + n < 64 →
      ∃ t, exec (.update n) s = .next t ∧ t.eng.h = s.eng.h ∧ t.eng.work = s.eng.work ∧
        compressions (.update n) s = 0) ∧
    (∀ n, n ≤ 4 → s.initd = true → 64 ≤ s.eng.bufcnt.toNat + n →
      ∃ t, exec (.update n) s = .next t ∧
        t.eng.h = Sha1.blockStep s.eng.h (Vector.ofFn fun i : Fin 64 =>
          if i.val < s.eng.bufcnt.toNat then s.eng.buf[i]
          else s.data.extractLsb' (24 - 8 * (i.val - s.eng.bufcnt.toNat)) 8) ∧
        compressions (.update n) s = 1) ∧
    (∀ n, 4 < n ∨ s.initd = false →
      ∃ t, exec (.update n) s = .next t ∧ t.eng = s.eng ∧ compressions (.update n) s = 0) ∧
    (s.initd = true → EngineReady s.eng → s.eng.bufcnt.toNat ≤ 55 →
      ∃ t, exec .final s = .next t ∧
        t.digest = Sha1.blockStep s.eng.h (Vector.ofFn fun i : Fin 64 =>
          if i.val < s.eng.bufcnt.toNat then s.eng.buf[i]
          else if i.val = s.eng.bufcnt.toNat then 0x80
          else if i.val < 56 then 0x00
          else s.eng.bitcnt.extractLsb' (8 * (63 - i.val)) 8) ∧
        compressions .final s = 1) ∧
    (s.initd = true → EngineReady s.eng → 55 < s.eng.bufcnt.toNat →
      ∃ t, exec .final s = .next t ∧
        t.digest = Sha1.blockStep
          (Sha1.blockStep s.eng.h (Vector.ofFn fun i : Fin 64 =>
            if i.val < s.eng.bufcnt.toNat then s.eng.buf[i]
            else if i.val = s.eng.bufcnt.toNat then 0x80
            else 0x00))
          (Vector.ofFn fun i : Fin 64 =>
            if i.val < 56 then 0x00 else s.eng.bitcnt.extractLsb' (8 * (63 - i.val)) 8) ∧
        compressions .final s = 2) ∧
    (s.initd = false → ∃ t, exec .final s = .next t ∧ t.eng = s.eng ∧ t.digest = s.digest ∧ compressions .final s = 0) ∧
    (∃ t, exec .init s = .next t ∧
      t.eng.h = #v[0x67452301, 0xEFCDAB89, 0x98BADCFE, 0x10325476, 0xC3D2E1F0] ∧ t.eng.work = s.eng.work ∧
      compressions .init s = 0) ∧
    (∀ i : Instr, i = .nop ∨ i = .seed ∨ i = .clrErr ∨ (∃ n, i = .saltGen n) →
      ∃ t, exec i s = .next t ∧ t.eng = s.eng ∧ compressions i s = 0)

/-- R51(d), (e): INIT leaves an engine that holds the empty message, and an accepted UPDATE n appends the first n bytes
of DATA to the message the engine holds, across every compression. -/
def Obligations.UpdateExtendsTheMessage : Prop :=
  (∀ s t : State, exec .init s = .next t → Represents t.eng []) ∧
  (∀ (s : State) (m : List Byte) (n : Nat), s.initd = true → n ≤ 4 → Represents s.eng m →
    ∃ t, exec (.update n) s = .next t ∧ Represents t.eng (m ++ dataBytes s.data n))

/-- FINAL on an engine that holds the message m, of any length, stores the digest of m (padding, big-endian length, every
block folded in from the initial values), sets DV and leaves an engine that holds the empty message. -/
def Obligations.FinalStoresTheDigestOfTheMessage : Prop :=
  ∀ (s : State) (m : List Byte), s.initd = true → Represents s.eng m →
    ∃ t, exec .final s = .next t ∧ t.digest = Sha1.digest m ∧ t.dv = true ∧ Represents t.eng []

/-- R36, R37, R51: an initialised engine always holds some message, and no step of any agent breaks that: the message
stays as it is, is emptied by INIT or FINAL, or grows by the bytes of an UPDATE, unless the core is reset. -/
def Obligations.EveryStepKeepsTheEnginesMessage : Prop :=
  ∀ s t : State, step s = .next t →
    (HoldsMessage s → HoldsMessage t) ∧
    (∀ m, s.initd = true → Represents s.eng m → s.env.head? ≠ some .reset →
      Represents t.eng m ∨
      (Represents t.eng [] ∧ (s.pend = some 0x00000001 ∨ s.pend = some 0x00000003)) ∨
      ∃ w n, s.pend = some w ∧ decode w = .ok (.update n) ∧ n ≤ 4 ∧ Represents t.eng (m ++ dataBytes s.data n))

/-- The source's two known digests (V-SRC-1 and V-SRC-2), of the digest function the headline is stated with. -/
def Obligations.KnownDigests : Prop :=
  Sha1.digest [] = #v[0xda39a3ee, 0x5e6b4b0d, 0x3255bfef, 0x95601890, 0xafd80709] ∧
  Sha1.digest [0x61, 0x62, 0x63] = #v[0xa9993e36, 0x4706816a, 0xba3e2571, 0x7850c26c, 0x9cd0d89d]

/-! ### The salt generator -/

/-- R185 and R186: every salt byte lies in 0x20..0x7F, and over the 32768 values of r each byte of 0x20..0x3F comes
from 342 of them and each byte of 0x40..0x7F from 341. -/
def Obligations.SaltByteBandAndDistribution : Prop :=
  (∀ x : Word, 0x20 ≤ (saltByte x).toNat ∧ (saltByte x).toNat ≤ 0x7F) ∧
  (∀ b : Nat, 0x20 ≤ b → b ≤ 0x7F →
    ((List.range 32768).filter fun r => saltByte (BitVec.ofNat 32 (r * 65536)) = BitVec.ofNat 8 b).length =
      if b < 0x40 then 342 else 341)

/-- R183 (consecutive SALT_GENs continue one sequence): the bytes of a SALT_GEN m after a SALT_GEN n are bytes n ..
n+m−1 of a single SALT_GEN (n + m), and the generator ends in the same state. -/
def Obligations.SaltGenContinuesOneSequence : Prop :=
  ∀ (s : State) (n m : Nat), s.seeded = true → n + m ≤ 16 →
    ∃ t u v, exec (.saltGen n) s = .next t ∧ exec (.saltGen m) t = .next u ∧ exec (.saltGen (n + m)) s = .next v ∧
      u.prng = v.prng ∧
      (∀ j : Nat, j < n → t.salt[j]? = v.salt[j]?) ∧ (∀ j : Nat, j < m → u.salt[j]? = v.salt[n + j]?)

/-- R187: the salt bytes after a SEED are a function of the seed (and the parameters) alone, whatever hash and control
commands run in between and whatever states they start from. -/
def Obligations.SaltDependsOnTheSeedAlone : Prop :=
  ∀ (s s' : State) (is is' : List Instr) (n : Nat) (a b a' b' u u' : State),
    s.data = s'.data → s.cfg = s'.cfg → n ≤ 16 →
    (∀ i ∈ is, i ≠ .seed ∧ ∀ k, i ≠ .saltGen k) → (∀ i ∈ is', i ≠ .seed ∧ ∀ k, i ≠ .saltGen k) →
    exec .seed s = .next a → runCommands is a = .next b → exec (.saltGen n) b = .next u →
    exec .seed s' = .next a' → runCommands is' a' = .next b' → exec (.saltGen n) b' = .next u' →
    u.salt = u'.salt ∧ u.saltlen = u'.saltlen ∧ u.prng = u'.prng

/-! ### The Host's accesses -/

/-- R72: an aligned 32-bit access to the block is performed; any other access to it has no step, and the refusal is
named. Which name a narrow access at an unaligned offset gets (the width is looked at before the alignment) is the
model's own choice (log 10). -/
def Obligations.OnlyAlignedWordAccessesAreDefined : Prop :=
  ∀ (s : State) (off : Nat) (size : AccessSize) (v : Word), off < 0x80 →
    (size = .word → off % 4 = 0 →
      (∃ t, hostRead (s.cfg.base + off) size s = .next t) ∧ (∃ t, hostWrite (s.cfg.base + off) size v s = .next t)) ∧
    (size ≠ .word →
      hostRead (s.cfg.base + off) size s = .refused .narrowAccess ∧
      hostWrite (s.cfg.base + off) size v s = .refused .narrowAccess) ∧
    (size = .word → off % 4 ≠ 0 →
      hostRead (s.cfg.base + off) size s = .refused .misaligned ∧
      hostWrite (s.cfg.base + off) size v s = .refused .misaligned)

/-- The register block is BASE .. BASE + 0x7F and nothing else (R70, R80). That an access outside it faults is the
model's own choice (log 9). -/
def Obligations.AccessOutsideTheBlockFaults : Prop :=
  ∀ (s : State) (addr : Nat) (size : AccessSize) (v : Word),
    addr < s.cfg.base ∨ s.cfg.base + 0x80 ≤ addr →
      hostRead addr size s = .fault .outsideBlock ∧ hostWrite addr size v s = .fault .outsideBlock

/-- R71, the column "read returns", while BUSY = 0: every register and every reserved offset. -/
def Obligations.RegisterMapReads : Prop :=
  ∀ (s : State) (off : Nat), s.pend = none → off < 0x80 → off % 4 = 0 →
    ∃ v : Word, hostRead (s.cfg.base + off) .word s = .next { s with lastRead := some v } ∧
      (off = 0x04 → v = statusWord s) ∧
      (off = 0x10 → v = s.eng.bitcnt.extractLsb' 0 32) ∧
      (off = 0x14 → v = s.eng.bitcnt.extractLsb' 32 32) ∧
      (∀ i : Fin 5, off = 0x20 + 4 * i.val → v = s.digest[i]) ∧
      (∀ i : Fin 4, off = 0x40 + 4 * i.val →
        v = s.salt[4 * i.val] ++ s.salt[4 * i.val + 1] ++ s.salt[4 * i.val + 2] ++ s.salt[4 * i.val + 3]) ∧
      (off ∉ [0x04, 0x10, 0x14, 0x20, 0x24, 0x28, 0x2C, 0x30, 0x40, 0x44, 0x48, 0x4C] → v = 0)

/-- R251: while BUSY = 1 a read of STATUS has bit 0 set and the other bits as a fresh draw has them, the result
registers read a fresh draw, and CMD, DATA and the reserved offsets read 0. The draw is the free value of log 8: the
statement holds whatever it is. -/
def Obligations.ReadsWhileBusyAreUnspecified : Prop :=
  ∀ (s : State) (w : Word) (off : Nat), s.pend = some w → off < 0x80 → off % 4 = 0 →
    ∃ v : Word, hostRead (s.cfg.base + off) .word s =
        .next { s with lastRead := some v, freeCount := s.freeCount + 1 } ∧
      (off = 0x04 → v.getLsbD 0 = true ∧
        ∀ k, 0 < k → v.getLsbD k = (Config.busyRead s.freeCount).getLsbD k) ∧
      (off ∈ [0x10, 0x14, 0x20, 0x24, 0x28, 0x2C, 0x30, 0x40, 0x44, 0x48, 0x4C] → v = Config.busyRead s.freeCount) ∧
      (off ∉ [0x04, 0x10, 0x14, 0x20, 0x24, 0x28, 0x2C, 0x30, 0x40, 0x44, 0x48, 0x4C] → v = 0)

/-- R73: a read changes no state of the core, and while BUSY = 0 a second read returns the same value. -/
def Obligations.ReadsHaveNoSideEffects : Prop :=
  ∀ (s t : State) (addr : Nat) (size : AccessSize), hostRead addr size s = .next t →
    (∃ r n, t = { s with lastRead := r, freeCount := n }) ∧
    (s.pend = none → hostRead addr size t = .next t)

/-- R74: a write to CMD is accepted when nothing is pending and dropped with OVERRUN otherwise. -/
def Obligations.CmdWriteSubmitsOrOverruns : Prop :=
  ∀ (s : State) (v : Word),
    (s.pend = none → hostWrite (s.cfg.base + 0x00) .word v s = .next { s with pend := some v }) ∧
    (∀ w, s.pend = some w → hostWrite (s.cfg.base + 0x00) .word v s =
      .next { s with err := true, errcode := if s.err then s.errcode else 6 })

/-- R75: a write to DATA is taken when nothing is pending and dropped with OVERRUN otherwise. -/
def Obligations.DataWriteLoadsOrOverruns : Prop :=
  ∀ (s : State) (v : Word),
    (s.pend = none → hostWrite (s.cfg.base + 0x08) .word v s = .next { s with data := v }) ∧
    (∀ w, s.pend = some w → hostWrite (s.cfg.base + 0x08) .word v s =
      .next { s with err := true, errcode := if s.err then s.errcode else 6 })

/-- R76: every write but those to CMD and DATA has no effect and raises no error, whether BUSY is 0 or 1. -/
def Obligations.OtherWritesAreIgnored : Prop :=
  ∀ (s : State) (off : Nat) (v : Word), off < 0x80 → off % 4 = 0 → off ≠ 0x00 → off ≠ 0x08 →
    hostWrite (s.cfg.base + off) .word v s = .next s

/-- R48: the STATUS layout while BUSY = 0, as the formula over its fields. -/
def Obligations.StatusLayout : Prop :=
  ∀ s : State, (statusWord s).toNat =
    s.saltlen.toNat * 2 ^ 24 + s.eng.bufcnt.toNat * 2 ^ 16 + s.errcode.toNat * 2 ^ 8 + s.err.toNat * 2 ^ 4 +
      s.seeded.toNat * 2 ^ 3 + s.dv.toNat * 2 ^ 2 + s.initd.toNat * 2

/-- R46, R82: bit 0 of a STATUS read is 1 exactly when a command is pending, so a poll that returns 0 comes after every
accepted command has completed. -/
def Obligations.PollingSeesCompletion : Prop :=
  ∀ (s t : State) (v : Word), hostRead (s.cfg.base + 0x04) .word s = .next t → t.lastRead = some v →
    (v.getLsbD 0 = true ↔ s.pend ≠ none)

/-- R250, R81: a write to CMD or DATA that follows a CMD write is dropped with OVERRUN when it comes before the Core step
of the first, and is accepted when it comes after, whatever word the first write submitted: both orders are runs of the
model (the event list is the model's form of R81's order: log 5). -/
def Obligations.BusyHazardHasBothOutcomes : Prop :=
  ∀ (s t : State) (off : Nat) (w v : Word) (rest : List Event), off = 0x00 ∨ off = 0x08 → s.pend = none →
    coreStep { s with pend := some w, env := .hostWrite (s.cfg.base + off) .word v :: rest } = .next t →
    Host.Core.run core 2 { s with
        env := .hostWrite (s.cfg.base + 0x00) .word w :: .hostWrite (s.cfg.base + off) .word v :: rest } =
      .next { s with
        env := rest
        pend := some w
        err := true
        errcode := if s.err then s.errcode else 6 } ∧
    Host.Core.run core 3 { s with
        env := .hostWrite (s.cfg.base + 0x00) .word w :: .coreStep :: .hostWrite (s.cfg.base + off) .word v :: rest } =
      .next (if off = 0x00 then { t with env := rest, pend := some v } else { t with env := rest, data := v })

/-! ### Reset -/

/-- R240: from every state, also while BUSY = 1, Reset abandons a pending command and sets every element to its reset
value, so STATUS reads 0. Of H, buf and PRNG nothing is said: they are unspecified. -/
def Obligations.ResetClearsTheCore : Prop :=
  ∀ s : State, let t := applyReset s
    t.pend = none ∧ t.initd = false ∧ t.dv = false ∧ t.seeded = false ∧ t.err = false ∧ t.errcode = 0 ∧
    t.eng.bufcnt = 0 ∧ t.saltlen = 0 ∧ t.eng.bitcnt = 0 ∧ t.data = 0 ∧ t.digest = Vector.replicate 5 0 ∧
    t.salt = Vector.replicate 16 0 ∧
    t.eng.work = { a := 0, b := 0, c := 0, d := 0, e := 0, t := 0, w := Vector.replicate 16 0 } ∧
    statusWord t = 0x00000000 ∧ readReg (regAt 0x04) t = 0x00000000

/-- R30's reset column, of the state the machine starts in: every value the spec gives. -/
def Obligations.ResetStateHoldsTheSpecsValues : Prop :=
  let s := State.reset
  s.pend = none ∧ s.initd = false ∧ s.dv = false ∧ s.seeded = false ∧ s.err = false ∧ s.errcode = 0 ∧
  s.eng.bufcnt = 0 ∧ s.saltlen = 0 ∧ s.eng.bitcnt = 0 ∧ s.data = 0 ∧ s.digest = Vector.replicate 5 0 ∧
  s.salt = Vector.replicate 16 0 ∧
  s.eng.work = { a := 0, b := 0, c := 0, d := 0, e := 0, t := 0, w := Vector.replicate 16 0 } ∧
  statusWord s = 0x00000000

/-- R241: no observation depends on the values unspecified after reset. Two states that differ only in H and buf while
INITD = 0 and in PRNG while SEEDED = 0 step alike, to states that differ only so (and agree on what the Host read), or
stop alike. -/
def Obligations.UnspecifiedResetValuesAreUnobservable : Prop :=
  ∀ s s' : State, SameObservable s s' →
    (∀ t, step s = .next t → ∃ t', step s' = .next t' ∧ SameObservable t t') ∧
    (∀ f, step s = .fault f → step s' = .fault f) ∧
    (∀ r, step s = .refused r → step s' = .refused r)

/-! ### The whole machine -/

/-- The invariants hold right after reset. -/
def Obligations.InvariantHoldsAtReset : Prop := Invariant State.reset ∧ HoldsMessage State.reset

/-- R33 to R36, R39, R40, R42 to R44, R47, R50, R51, R185, R210: every step keeps the invariant, from every state that
has it, whatever agent acts. -/
def Obligations.EveryStepKeepsTheInvariant : Prop :=
  ∀ s t : State, Invariant s → step s = .next t → Invariant t

/-- R155, R254 ("No command can hang the core"): from a state with the invariant, whose Host makes only accesses the
spec defines, a step never stops, and the next state is such a state again. -/
def Obligations.SafeRunsNeverStop : Prop :=
  ∀ s : State, Invariant s → s.envDefined = true → ∃ t, step s = .next t ∧ Invariant t ∧ t.envDefined = true

/-- R254: an accepted command is executed. From a state with the invariant, a pending word and no Reset among the events
still to come, whose Host accesses are defined ones, a state t is reached within as many steps as there are events left
in which that word is still pending, all the state a command reads and writes but ERR and ERRCODE is as it was, and the
next step is the Core's: it executes that word and clears PEND. Where Resets may come, PEND = none is reached within one
step more than there are events left. Both bounds rest on log 5: the Core acts by itself once no event is left. -/
def Obligations.AcceptedCommandsComplete : Prop :=
  ∀ s : State, Invariant s → s.envDefined = true →
    (∀ w, s.pend = some w → Event.reset ∉ s.env →
      ∃ k t u, k ≤ s.env.length ∧ Host.Core.run core k s = .next t ∧
        t = { s with env := t.env, lastRead := t.lastRead, freeCount := t.freeCount, err := t.err,
                     errcode := t.errcode } ∧
        executeWord w { t with env := t.env.tail } = .next u ∧ step t = .next { u with pend := none } ∧
        Host.Core.run core (k + 1) s = .next { u with pend := none }) ∧
    ∃ k t, k ≤ s.env.length + 1 ∧ Host.Core.run core k s = .next t ∧ t.pend = none

/-- R38, R42: nothing but reset clears INITD and SEEDED. -/
def Obligations.OnlyResetClearsInitdAndSeeded : Prop :=
  ∀ s t : State, step s = .next t → s.env.head? ≠ some .reset →
    (s.initd = true → t.initd = true) ∧ (s.seeded = true → t.seeded = true)

/-- R39, R253: DIGEST and DV change only in a step that resets the core or executes a pending INIT or FINAL. -/
def Obligations.DigestChangesOnlyByInitFinalOrReset : Prop :=
  ∀ s t : State, step s = .next t → (t.digest ≠ s.digest ∨ t.dv ≠ s.dv) →
    s.env.head? = some .reset ∨
    ((s.env = [] ∨ s.env.head? = some .coreStep) ∧ (s.pend = some 0x00000001 ∨ s.pend = some 0x00000003))

/-- R110: the expansion of ABSORB delivers its bytes: the DATA words and UPDATE counts it writes, read back as an
UPDATE reads them (R101), are the bytes in order, every count is 1..4, and every chunk ends in a WAIT. -/
def Obligations.AbsorbExpansionDeliversItsBytes : Prop :=
  ∀ bs : List Byte, ∃ us : List (Word × Nat),
    absorbTransactions bs =
      us.flatMap (fun u => [.wr 0x08 u.1, .wr 0x00 (encode (.update u.2)), .poll]) ∧
    (∀ u ∈ us, 1 ≤ u.2 ∧ u.2 ≤ 4) ∧ fedBytes us = bs
end

