-- ==== Sys2Proof/Laws/State.lean ====
section
/-! SUPPORT. One lemma per field per named update of the state, so that no proof unfolds one. -/

namespace Sys2Proof.Machine

/-! ### Recording an error (R212) writes ERR and ERRCODE only -/

@[simp] theorem raiseError_err (c : CmdError) (s : State) : (raiseError c s).err = true := rfl

@[simp] theorem raiseError_errcode (c : CmdError) (s : State) :
    (raiseError c s).errcode = if s.err then s.errcode else errorCode c := rfl

@[simp] theorem raiseError_eng (c : CmdError) (s : State) : (raiseError c s).eng = s.eng := rfl

@[simp] theorem raiseError_initd (c : CmdError) (s : State) : (raiseError c s).initd = s.initd := rfl

@[simp] theorem raiseError_digest (c : CmdError) (s : State) : (raiseError c s).digest = s.digest := rfl

@[simp] theorem raiseError_dv (c : CmdError) (s : State) : (raiseError c s).dv = s.dv := rfl

@[simp] theorem raiseError_prng (c : CmdError) (s : State) : (raiseError c s).prng = s.prng := rfl

@[simp] theorem raiseError_seeded (c : CmdError) (s : State) : (raiseError c s).seeded = s.seeded := rfl

@[simp] theorem raiseError_salt (c : CmdError) (s : State) : (raiseError c s).salt = s.salt := rfl

@[simp] theorem raiseError_saltlen (c : CmdError) (s : State) : (raiseError c s).saltlen = s.saltlen := rfl

@[simp] theorem raiseError_data (c : CmdError) (s : State) : (raiseError c s).data = s.data := rfl

@[simp] theorem raiseError_pend (c : CmdError) (s : State) : (raiseError c s).pend = s.pend := rfl

@[simp] theorem raiseError_cfg (c : CmdError) (s : State) : (raiseError c s).cfg = s.cfg := rfl

@[simp] theorem raiseError_env (c : CmdError) (s : State) : (raiseError c s).env = s.env := rfl

@[simp] theorem raiseError_lastRead (c : CmdError) (s : State) : (raiseError c s).lastRead = s.lastRead := rfl

@[simp] theorem raiseError_freeCount (c : CmdError) (s : State) : (raiseError c s).freeCount = s.freeCount := rfl

/-! ### Clearing the error (R202) writes ERR and ERRCODE only -/

@[simp] theorem clearError_err (s : State) : (clearError s).err = false := rfl

@[simp] theorem clearError_errcode (s : State) : (clearError s).errcode = 0 := rfl

@[simp] theorem clearError_eng (s : State) : (clearError s).eng = s.eng := rfl

@[simp] theorem clearError_initd (s : State) : (clearError s).initd = s.initd := rfl

@[simp] theorem clearError_digest (s : State) : (clearError s).digest = s.digest := rfl

@[simp] theorem clearError_dv (s : State) : (clearError s).dv = s.dv := rfl

@[simp] theorem clearError_prng (s : State) : (clearError s).prng = s.prng := rfl

@[simp] theorem clearError_seeded (s : State) : (clearError s).seeded = s.seeded := rfl

@[simp] theorem clearError_salt (s : State) : (clearError s).salt = s.salt := rfl

@[simp] theorem clearError_saltlen (s : State) : (clearError s).saltlen = s.saltlen := rfl

@[simp] theorem clearError_data (s : State) : (clearError s).data = s.data := rfl

@[simp] theorem clearError_pend (s : State) : (clearError s).pend = s.pend := rfl

@[simp] theorem clearError_cfg (s : State) : (clearError s).cfg = s.cfg := rfl

@[simp] theorem clearError_env (s : State) : (clearError s).env = s.env := rfl

@[simp] theorem clearError_lastRead (s : State) : (clearError s).lastRead = s.lastRead := rfl

@[simp] theorem clearError_freeCount (s : State) : (clearError s).freeCount = s.freeCount := rfl

/-! ### Reset (R240) -/

@[simp] theorem applyReset_eng (s : State) :
    (applyReset s).eng =
      { h := Config.resetAcc s.freeCount, buf := Config.resetBuf s.freeCount, bufcnt := 0, bitcnt := 0,
        work := Working.zero } := rfl

@[simp] theorem applyReset_prng (s : State) : (applyReset s).prng = Config.resetPrng s.freeCount := rfl

@[simp] theorem applyReset_freeCount (s : State) : (applyReset s).freeCount = s.freeCount + 1 := rfl

@[simp] theorem applyReset_initd (s : State) : (applyReset s).initd = false := rfl

@[simp] theorem applyReset_digest (s : State) : (applyReset s).digest = Vector.replicate 5 0 := rfl

@[simp] theorem applyReset_dv (s : State) : (applyReset s).dv = false := rfl

@[simp] theorem applyReset_seeded (s : State) : (applyReset s).seeded = false := rfl

@[simp] theorem applyReset_salt (s : State) : (applyReset s).salt = Vector.replicate 16 0 := rfl

@[simp] theorem applyReset_saltlen (s : State) : (applyReset s).saltlen = 0 := rfl

@[simp] theorem applyReset_data (s : State) : (applyReset s).data = 0 := rfl

@[simp] theorem applyReset_pend (s : State) : (applyReset s).pend = none := rfl

@[simp] theorem applyReset_err (s : State) : (applyReset s).err = false := rfl

@[simp] theorem applyReset_errcode (s : State) : (applyReset s).errcode = 0 := rfl

@[simp] theorem applyReset_cfg (s : State) : (applyReset s).cfg = s.cfg := rfl

@[simp] theorem applyReset_env (s : State) : (applyReset s).env = s.env := rfl

@[simp] theorem applyReset_lastRead (s : State) : (applyReset s).lastRead = s.lastRead := rfl

/-! ### Reinit (R133) -/

@[simp] theorem reinit_h (e : Engine) : (reinit e).h = initialAcc := rfl

@[simp] theorem reinit_buf (e : Engine) : (reinit e).buf = Vector.replicate 64 0 := rfl

@[simp] theorem reinit_bitcnt (e : Engine) : (reinit e).bitcnt = 0 := rfl

@[simp] theorem reinit_bufcnt (e : Engine) : (reinit e).bufcnt = 0 := rfl

@[simp] theorem reinit_work (e : Engine) : (reinit e).work = e.work := rfl

/-! ### Compress (R141) writes H and zeroizes the working registers -/

@[simp] theorem compress_buf (e : Engine) : (compress e).buf = e.buf := rfl

@[simp] theorem compress_bitcnt (e : Engine) : (compress e).bitcnt = e.bitcnt := rfl

@[simp] theorem compress_bufcnt (e : Engine) : (compress e).bufcnt = e.bufcnt := rfl

@[simp] theorem compress_work (e : Engine) : (compress e).work = Working.zero := rfl

/-! ### The word placed for the next step (log 14) -/

@[simp] theorem withFetchWord_pend (s : State) (n w : Nat) :
    (s.withFetchWord n w).pend = some (tableWord n w) := rfl

@[simp] theorem withFetchWord_env (s : State) (n w : Nat) : (s.withFetchWord n w).env = .coreStep :: s.env := rfl

@[simp] theorem withFetchWord_eng (s : State) (n w : Nat) : (s.withFetchWord n w).eng = s.eng := rfl

@[simp] theorem withFetchWord_initd (s : State) (n w : Nat) : (s.withFetchWord n w).initd = s.initd := rfl

@[simp] theorem withFetchWord_digest (s : State) (n w : Nat) : (s.withFetchWord n w).digest = s.digest := rfl

@[simp] theorem withFetchWord_dv (s : State) (n w : Nat) : (s.withFetchWord n w).dv = s.dv := rfl

@[simp] theorem withFetchWord_prng (s : State) (n w : Nat) : (s.withFetchWord n w).prng = s.prng := rfl

@[simp] theorem withFetchWord_seeded (s : State) (n w : Nat) : (s.withFetchWord n w).seeded = s.seeded := rfl

@[simp] theorem withFetchWord_salt (s : State) (n w : Nat) : (s.withFetchWord n w).salt = s.salt := rfl

@[simp] theorem withFetchWord_saltlen (s : State) (n w : Nat) : (s.withFetchWord n w).saltlen = s.saltlen := rfl

@[simp] theorem withFetchWord_data (s : State) (n w : Nat) : (s.withFetchWord n w).data = s.data := rfl

@[simp] theorem withFetchWord_err (s : State) (n w : Nat) : (s.withFetchWord n w).err = s.err := rfl

@[simp] theorem withFetchWord_errcode (s : State) (n w : Nat) : (s.withFetchWord n w).errcode = s.errcode := rfl

@[simp] theorem withFetchWord_cfg (s : State) (n w : Nat) : (s.withFetchWord n w).cfg = s.cfg := rfl

@[simp] theorem withFetchWord_lastRead (s : State) (n w : Nat) : (s.withFetchWord n w).lastRead = s.lastRead := rfl

@[simp] theorem withFetchWord_freeCount (s : State) (n w : Nat) : (s.withFetchWord n w).freeCount = s.freeCount := rfl

/-! ### The state without its error record -/

@[simp] theorem withoutError_err (s : State) : s.withoutError.err = false := rfl

@[simp] theorem withoutError_errcode (s : State) : s.withoutError.errcode = 0 := rfl

@[simp] theorem withoutError_eng (s : State) : (s.withoutError).eng = s.eng := rfl

@[simp] theorem withoutError_initd (s : State) : (s.withoutError).initd = s.initd := rfl

@[simp] theorem withoutError_digest (s : State) : (s.withoutError).digest = s.digest := rfl

@[simp] theorem withoutError_dv (s : State) : (s.withoutError).dv = s.dv := rfl

@[simp] theorem withoutError_prng (s : State) : (s.withoutError).prng = s.prng := rfl

@[simp] theorem withoutError_seeded (s : State) : (s.withoutError).seeded = s.seeded := rfl

@[simp] theorem withoutError_salt (s : State) : (s.withoutError).salt = s.salt := rfl

@[simp] theorem withoutError_saltlen (s : State) : (s.withoutError).saltlen = s.saltlen := rfl

@[simp] theorem withoutError_data (s : State) : (s.withoutError).data = s.data := rfl

@[simp] theorem withoutError_pend (s : State) : (s.withoutError).pend = s.pend := rfl

@[simp] theorem withoutError_cfg (s : State) : (s.withoutError).cfg = s.cfg := rfl

@[simp] theorem withoutError_env (s : State) : (s.withoutError).env = s.env := rfl

@[simp] theorem withoutError_lastRead (s : State) : (s.withoutError).lastRead = s.lastRead := rfl

@[simp] theorem withoutError_freeCount (s : State) : (s.withoutError).freeCount = s.freeCount := rfl

end Sys2Proof.Machine
end

