-- ==== Sys2Proof/Laws/Engine.lean ====
section
/-! SUPPORT. What Absorb, the padding loop and the salt loop do, once each (spec/40_hash_engine.md R137, R150;
spec/41_salt_generator.md R183). -/

namespace Sys2Proof.Machine

/-! ### Absorb -/

/-- Below 63 buffered bytes Absorb stores and counts the byte. -/
theorem absorb_of_room {e : Engine} (b : Byte) (h : e.bufcnt ≠ 63) :
    absorb e b =
      { e with
        buf := e.buf.set e.bufcnt.toNat b e.bufcnt.isLt
        bitcnt := e.bitcnt + 8
        bufcnt := e.bufcnt + 1 } := if_neg h

/-- At 63 buffered bytes Absorb completes the block and compresses it. -/
theorem absorb_of_full {e : Engine} (b : Byte) (h : e.bufcnt = 63) :
    absorb e b =
      { h := (compress { e with buf := e.buf.set 63 b }).h
        buf := Vector.replicate 64 0
        bufcnt := 0
        bitcnt := e.bitcnt + 8
        work := Working.zero } := by
  simp [absorb, h, compress]

/-- Every Absorb counts eight bits (R137). -/
@[simp] theorem absorb_bitcnt (e : Engine) (b : Byte) : (absorb e b).bitcnt = e.bitcnt + 8 := by
  by_cases h : e.bufcnt = 63
  · simp [absorb_of_full b h]
  · simp [absorb_of_room b h]

/-- Every Absorb counts one byte, modulo 64: adding one to 63 gives 0 in the 6-bit counter (R36). -/
@[simp] theorem absorb_bufcnt (e : Engine) (b : Byte) : (absorb e b).bufcnt = e.bufcnt + 1 := by
  by_cases h : e.bufcnt = 63
  · simp [absorb_of_full b h, h]
  · simp [absorb_of_room b h]

/-- Absorb leaves the working registers zeroized where they were (R33, R34). -/
theorem absorb_work {e : Engine} (b : Byte) (h : e.work = Working.zero) : (absorb e b).work = Working.zero := by
  by_cases hf : e.bufcnt = 63
  · simp [absorb_of_full b hf]
  · simp [absorb_of_room b hf, h]

/-! ### Absorbing bytes in order -/

@[simp] theorem absorbAll_nil (e : Engine) : absorbAll e [] = e := rfl

@[simp] theorem absorbAll_cons (e : Engine) (b : Byte) (bs : List Byte) :
    absorbAll e (b :: bs) = absorbAll (absorb e b) bs := rfl

/-- What two runs of bytes leave is what their concatenation leaves. -/
theorem absorbAll_append (e : Engine) (bs cs : List Byte) :
    absorbAll e (bs ++ cs) = absorbAll (absorbAll e bs) cs := List.foldl_append

/-- The bits counted by a run of bytes. -/
theorem absorbAll_bitcnt (bs : List Byte) (e : Engine) :
    (absorbAll e bs).bitcnt = e.bitcnt + BitVec.ofNat 64 (8 * bs.length) := by
  induction bs generalizing e with
  | nil => simp
  | cons b bs ih =>
    rw [absorbAll_cons, ih, absorb_bitcnt, List.length_cons, BitVec.add_assoc]
    congr 1
    apply BitVec.eq_of_toNat_eq
    simp
    omega

/-- The bytes counted by a run of bytes, modulo 64. -/
theorem absorbAll_bufcnt (bs : List Byte) (e : Engine) :
    (absorbAll e bs).bufcnt = e.bufcnt + BitVec.ofNat 6 bs.length := by
  induction bs generalizing e with
  | nil => simp
  | cons b bs ih =>
    rw [absorbAll_cons, ih, absorb_bufcnt, List.length_cons, BitVec.add_assoc]
    congr 1
    apply BitVec.eq_of_toNat_eq
    simp
    omega

/-- A run of bytes leaves the working registers zeroized where they were. -/
theorem absorbAll_work (bs : List Byte) {e : Engine} (h : e.work = Working.zero) :
    (absorbAll e bs).work = Working.zero := by
  induction bs generalizing e with
  | nil => exact h
  | cons b bs ih => exact ih (absorb_work b h)

/-! ### The padding loop -/

/-- Where the loop ends, it absorbed zero bytes, no more than its fuel, and stands at 448 modulo 512. -/
theorem padZero_spec {fuel : Nat} {e p : Engine} (h : padZero fuel e = some p) :
    p.bitcnt.toNat % 512 = 448 ∧ ∃ z, z ≤ fuel ∧ p = absorbAll e (List.replicate z 0x00) := by
  induction fuel generalizing e with
  | zero =>
    by_cases hb : e.bitcnt.toNat % 512 = 448
    · simp only [padZero, hb, if_true, Option.some.injEq] at h
      exact ⟨h ▸ hb, 0, Nat.le_refl 0, by simp [h]⟩
    · simp [padZero, hb] at h
  | succ fuel ih =>
    by_cases hb : e.bitcnt.toNat % 512 = 448
    · simp only [padZero, hb, if_true, Option.some.injEq] at h
      exact ⟨h ▸ hb, 0, Nat.zero_le _, by simp [h]⟩
    · simp only [padZero, hb, if_false] at h
      obtain ⟨hp, z, hz, rfl⟩ := ih h
      exact ⟨hp, z + 1, by omega, by simp [List.replicate_succ]⟩

/-! ### The salt loop -/

@[simp] theorem fillSalt_zero (p : Params) (g : Word × Vector Byte 16) : fillSalt p 0 g = g := rfl

/-- The generator's state after n bytes is its step iterated n times. -/
theorem fillSalt_prng (p : Params) (n : Nat) (g : Word × Vector Byte 16) :
    (fillSalt p n g).1 = (nextPrng p)^[n] g.1 := by
  induction n with
  | zero => rfl
  | succ n ih => simp [fillSalt, ih, Function.iterate_succ_apply']

/-- Bytes from n on are as the loop found them. -/
theorem fillSalt_rest (p : Params) (n : Nat) (g : Word × Vector Byte 16) (j : Fin 16) (h : n ≤ j.val) :
    (fillSalt p n g).2[j] = g.2[j] := by
  induction n with
  | zero => rfl
  | succ n ih =>
    have hne : n ≠ j.val := by omega
    have := ih (by omega)
    simp only [Fin.getElem_fin] at this ⊢
    simp [fillSalt, hne, this]

/-- Byte j < n is the salt byte of the generator's state j + 1. -/
theorem fillSalt_byte (p : Params) (n : Nat) (g : Word × Vector Byte 16) (j : Fin 16) (h : j.val < n) :
    (fillSalt p n g).2[j] = saltByte ((nextPrng p)^[j.val + 1] g.1) := by
  induction n with
  | zero => omega
  | succ n ih =>
    by_cases hj : n = j.val
    · subst hj
      simp [fillSalt, fillSalt_prng, Function.iterate_succ_apply']
    · have := ih (by omega)
      simp only [Fin.getElem_fin] at this ⊢
      simp [fillSalt, hj, this]

end Sys2Proof.Machine
end

