-- ==== Sys2Proof/Laws/Exec.lean ====
section
/-! SUPPORT. What each meaning, a Core step, a Host access and a step can answer: one inversion lemma each, which later
proofs cite instead of unfolding the definition. -/

namespace Sys2Proof.Machine

open Host (Outcome)

/-! ### The commands -/

theorem execUpdate_next {n : Nat} {s t : State} (h : execUpdate n s = .next t) :
    (4 < n ∧ t = raiseError .badlen s) ∨
    (n ≤ 4 ∧ s.initd = false ∧ t = raiseError .noinit s) ∨
    (n = 0 ∧ s.initd = true ∧ t = s) ∨
    (1 ≤ n ∧ n ≤ 4 ∧ s.initd = true ∧
      t = { s with eng := absorbAll s.eng (dataBytes s.data n), data := 0 }) := by
  unfold execUpdate at h
  split at h
  · next hn => exact .inl ⟨hn, (Outcome.next.inj h).symm⟩
  · next hn =>
    split at h
    · next hi => exact .inr (.inl ⟨by omega, hi, (Outcome.next.inj h).symm⟩)
    · next hi =>
      have hi : s.initd = true := by simpa using hi
      split at h
      · next h0 => exact .inr (.inr (.inl ⟨h0, hi, (Outcome.next.inj h).symm⟩))
      · next h0 => exact .inr (.inr (.inr ⟨by omega, by omega, hi, (Outcome.next.inj h).symm⟩))

theorem execFinal_next {s t : State} (h : execFinal s = .next t) :
    (s.initd = false ∧ t = raiseError .noinit s) ∨
    (s.initd = true ∧ ∃ e, padMessage s.eng = some e ∧
      t = { s with eng := reinit e, digest := e.h, dv := true }) := by
  unfold execFinal at h
  split at h
  · next hi => exact .inl ⟨hi, (Outcome.next.inj h).symm⟩
  · next hi =>
    split at h
    · cases h
    · next e he => exact .inr ⟨by simpa using hi, e, he, (Outcome.next.inj h).symm⟩

theorem execSaltGen_next {n : Nat} {s t : State} (h : execSaltGen n s = .next t) :
    (16 < n ∧ t = raiseError .saltlen s) ∨
    (n ≤ 16 ∧ s.seeded = false ∧ t = raiseError .noseed s) ∨
    (n ≤ 16 ∧ s.seeded = true ∧
      t = { s with
        prng := (fillSalt s.cfg n (s.prng, Vector.replicate 16 0)).1
        salt := (fillSalt s.cfg n (s.prng, Vector.replicate 16 0)).2
        saltlen := BitVec.ofNat 5 n }) := by
  unfold execSaltGen at h
  split at h
  · next hn => exact .inl ⟨hn, (Outcome.next.inj h).symm⟩
  · next hn =>
    split at h
    · next hi => exact .inr (.inl ⟨by omega, hi, (Outcome.next.inj h).symm⟩)
    · next hi => exact .inr (.inr ⟨by omega, by simpa using hi, (Outcome.next.inj h).symm⟩)

/-! ### The padding of FINAL -/

/-- Where FINAL's padding ends, it absorbed 0x80, some zero bytes and the length field of the message. -/
theorem padMessage_spec {e p : Engine} (h : padMessage e = some p) :
    ∃ z, z ≤ padFuel ∧ p = absorbAll e (0x80 :: List.replicate z 0x00 ++ lengthBytes e.bitcnt) := by
  obtain ⟨q, hq, rfl⟩ := Option.map_eq_some_iff.mp h
  obtain ⟨-, z, hz, rfl⟩ := padZero_spec hq
  exact ⟨z, hz, by simp [absorbAll_append]⟩

/-! ### The Core agent -/

@[simp] theorem executeWord_ok {w : Word} {i : Instr} (s : State) (h : decode w = .ok i) :
    executeWord w s = exec i s := by
  simp [executeWord, h]

@[simp] theorem executeWord_error {w : Word} {r : DecodeError} (s : State) (h : decode w = .error r) :
    executeWord w s = .next (raiseError .illegal s) := by
  simp [executeWord, h]

theorem coreStep_none {s : State} (h : s.pend = none) : coreStep s = .next s := by
  simp [coreStep, h]

theorem coreStep_some {s : State} {w : Word} (h : s.pend = some w) : coreStep s = retire (executeWord w s) := by
  simp [coreStep, h]

theorem retire_next {o : Outcome State Fault Refusal} {t : State} (h : retire o = .next t) :
    ∃ u, o = .next u ∧ t = { u with pend := none } := by
  cases o with
  | next u => exact ⟨u, rfl, (Outcome.next.inj h).symm⟩
  | fault f => cases h
  | refused r => cases h

/-- A Core step that answers a next state: nothing pending, an illegal word, or a command that ran. -/
theorem coreStep_next {s t : State} (h : coreStep s = .next t) :
    (s.pend = none ∧ t = s) ∨
    ∃ w, s.pend = some w ∧
      ((∃ r, decode w = .error r ∧ t = { raiseError .illegal s with pend := none }) ∨
        ∃ i u, decode w = .ok i ∧ exec i s = .next u ∧ t = { u with pend := none }) := by
  cases hp : s.pend with
  | none => exact .inl ⟨rfl, (Outcome.next.inj ((coreStep_none hp).symm.trans h)).symm⟩
  | some w =>
    rw [coreStep_some hp] at h
    obtain ⟨u, hu, rfl⟩ := retire_next h
    refine .inr ⟨w, rfl, ?_⟩
    cases hd : decode w with
    | error r =>
      rw [executeWord_error s hd] at hu
      exact .inl ⟨r, rfl, by rw [← Outcome.next.inj hu]⟩
    | ok i =>
      rw [executeWord_ok s hd] at hu
      exact .inr ⟨i, u, rfl, hu, rfl⟩

/-! ### The Host's accesses -/

/-- An access that answers a next state is an aligned word access to the block, and it does what it is given. -/
theorem access_next {addr : Nat} {size : AccessSize} {s t : State} {act : Reg → State}
    (h : access addr size s act = .next t) :
    s.cfg.base ≤ addr ∧ addr < s.cfg.base + Params.blockSize ∧ size = .word ∧ (addr - s.cfg.base) % 4 = 0 ∧
      t = act (regAt (addr - s.cfg.base)) := by
  unfold access at h
  split at h
  · cases h
  · next hb =>
    split at h
    · cases h
    · next hs =>
      split at h
      · cases h
      · next ha =>
        exact ⟨by omega, by omega, by simpa using hs, by omega, (Outcome.next.inj h).symm⟩

/-- An aligned word access at an offset of the block is performed. -/
theorem access_word {off : Nat} {s : State} (act : Reg → State) (hb : off < Params.blockSize) (ha : off % 4 = 0) :
    access (s.cfg.base + off) .word s act = .next (act (regAt off)) := by
  simp [access, ha, hb]

/-- A Host read leaves everything but what was read and the draws taken. -/
theorem hostReadReg_frame (r : Reg) (s : State) :
    ∃ v n, hostReadReg r s = { s with lastRead := some v, freeCount := n } := by
  unfold hostReadReg
  split
  · exact ⟨_, _, rfl⟩
  · exact ⟨_, _, rfl⟩

/-- What a Host write can do: submit a command, load DATA, record OVERRUN, or nothing. -/
theorem hostWriteReg_cases (r : Reg) (v : Word) (s : State) :
    (r = .cmd ∧ s.pend = none ∧ hostWriteReg r v s = { s with pend := some v }) ∨
    (r = .data ∧ s.pend = none ∧ hostWriteReg r v s = { s with data := v }) ∨
    ((r = .cmd ∨ r = .data) ∧ s.pend ≠ none ∧ hostWriteReg r v s = raiseError .overrun s) ∨
    (r ≠ .cmd ∧ r ≠ .data ∧ hostWriteReg r v s = s) := by
  cases hp : s.pend <;> cases r <;> simp [hostWriteReg, State.busy, hp]

/-! ### One step -/

/-- What a step that answers a next state did: the Core's, a read, a write or a reset. -/
theorem step_next {s t : State} (h : step s = .next t) :
    (∃ env, (s.env = [] ∧ env = [] ∨ s.env = .coreStep :: env) ∧ coreStep { s with env := env } = .next t) ∨
    (∃ addr size rest, s.env = .hostRead addr size :: rest ∧ hostRead addr size { s with env := rest } = .next t) ∨
    (∃ addr size v rest, s.env = .hostWrite addr size v :: rest ∧
      hostWrite addr size v { s with env := rest } = .next t) ∨
    (∃ rest, s.env = .reset :: rest ∧ t = applyReset { s with env := rest }) := by
  unfold step at h
  split at h
  · next he => exact .inl ⟨[], .inl ⟨he, rfl⟩, by simpa [← he] using h⟩
  · next rest he => exact .inl ⟨rest, .inr he, h⟩
  · next addr size rest he => exact .inr (.inl ⟨addr, size, rest, he, h⟩)
  · next addr size v rest he => exact .inr (.inr (.inl ⟨addr, size, v, rest, he, h⟩))
  · next rest he => exact .inr (.inr (.inr ⟨rest, he, (Outcome.next.inj h).symm⟩))

end Sys2Proof.Machine
end

