-- ==== Sys2Proof/Laws/Operands.lean ====
section
/-! SUPPORT. The byte lanes of a word (spec/20_memory.md R79): taking a word apart and putting it together are
inverse. -/

namespace Sys2Proof.Machine

/-- The value of a big-endian word. -/
theorem be32_toNat (a b c d : Byte) :
    (be32 a b c d).toNat = a.toNat * 2 ^ 24 + b.toNat * 2 ^ 16 + c.toNat * 2 ^ 8 + d.toNat := by
  unfold be32
  have hb := b.isLt
  have hc := c.isLt
  have hd := d.isLt
  simp only [BitVec.toNat_append]
  rw [← Nat.shiftLeft_add_eq_or_of_lt hb, ← Nat.shiftLeft_add_eq_or_of_lt hc, ← Nat.shiftLeft_add_eq_or_of_lt hd]
  simp only [Nat.shiftLeft_eq]
  omega

/-- Lane k of a word, as a number. -/
theorem byteLane_toNat (v : Word) (k : Nat) : (byteLane v k).toNat = v.toNat / 2 ^ (24 - 8 * k) % 2 ^ 8 := by
  simp [byteLane, Nat.shiftRight_eq_div_pow]

@[simp] theorem byteLane_be32_zero (a b c d : Byte) : byteLane (be32 a b c d) 0 = a := by
  have hb := b.isLt
  have hc := c.isLt
  have hd := d.isLt
  apply BitVec.eq_of_toNat_eq
  rw [byteLane_toNat, be32_toNat]
  omega

@[simp] theorem byteLane_be32_one (a b c d : Byte) : byteLane (be32 a b c d) 1 = b := by
  have hb := b.isLt
  have hc := c.isLt
  have hd := d.isLt
  apply BitVec.eq_of_toNat_eq
  rw [byteLane_toNat, be32_toNat]
  omega

@[simp] theorem byteLane_be32_two (a b c d : Byte) : byteLane (be32 a b c d) 2 = c := by
  have hc := c.isLt
  have hd := d.isLt
  apply BitVec.eq_of_toNat_eq
  rw [byteLane_toNat, be32_toNat]
  omega

@[simp] theorem byteLane_be32_three (a b c d : Byte) : byteLane (be32 a b c d) 3 = d := by
  have hd := d.isLt
  apply BitVec.eq_of_toNat_eq
  rw [byteLane_toNat, be32_toNat]
  omega

/-- The word whose bytes are a word's lanes is the word. -/
theorem be32_byteLanes (v : Word) : be32 (byteLane v 0) (byteLane v 1) (byteLane v 2) (byteLane v 3) = v := by
  have hv := v.isLt
  apply BitVec.eq_of_toNat_eq
  simp only [be32_toNat, byteLane_toNat]
  omega

/-- The bytes an UPDATE takes from a word put together from four bytes are the first of them. -/
@[simp] theorem dataBytes_be32 (a b c d : Byte) (n : Nat) : dataBytes (be32 a b c d) n = [a, b, c, d].take n := by
  simp [dataBytes]

end Sys2Proof.Machine
end

