-- ==== Sys2Proof/Laws/PerInstr.lean ====
section
/-! SUPPORT. Per command: the fields of its encoding (spec/30_encoding.md R100, R102). -/

namespace Sys2Proof.Laws.EncodedFields

/-- The encoding of a well-formed command spells its opcode and its count, with the reserved bits zero. -/
def Statement (i : Instr) : Prop :=
  i.wellFormed = true →
    opcField (encode i) = i.opcode ∧ countField (encode i) = i.count ∧ rsvField (encode i) = 0

theorem nop : Statement .nop := fun _ => by decide

theorem init : Statement .init := fun _ => by decide

theorem update (n : Nat) : Statement (.update n) := fun h => by
  have hn : n < 2 ^ 5 := by simpa [Instr.wellFormed, countFits] using h
  interval_cases n <;> decide

theorem final : Statement .final := fun _ => by decide

theorem seed : Statement .seed := fun _ => by decide

theorem saltGen (n : Nat) : Statement (.saltGen n) := fun h => by
  have hn : n < 2 ^ 5 := by simpa [Instr.wellFormed, countFits] using h
  interval_cases n <;> decide

theorem clrErr : Statement .clrErr := fun _ => by decide

end Sys2Proof.Laws.EncodedFields
end

