-- ==== Sys2Proof/Laws/Sha1.lean ====
section
/-! SUPPORT. The small lemmas of the digest's specification: its blocks, its chaining values and the length of its
schedule. -/

namespace Sys2Proof.Sha1

open Sys2Proof.Machine

/-- A byte of a block is the byte of the sequence, or 0 past its end. -/
@[simp] theorem blockAt_getElem (m : List Byte) (k i : Nat) (h : i < 64) :
    (blockAt m k)[i] = m.getD (64 * k + i) 0 := by
  simp only [blockAt, Vector.getElem_ofFn]

/-- The block of an empty rest is all zero. -/
theorem blockAt_of_length_le {m : List Byte} {k : Nat} (h : m.length ≤ 64 * k) :
    blockAt m k = Vector.replicate 64 0 := by
  ext1 i hi
  rw [blockAt_getElem, List.getD_eq_default _ _ (by omega), Vector.getElem_replicate]

/-- Whole blocks do not see what is appended after them. -/
theorem blockAt_append {m : List Byte} (rest : List Byte) {k : Nat} (h : 64 * (k + 1) ≤ m.length) :
    blockAt (m ++ rest) k = blockAt m k := by
  ext1 i hi
  rw [blockAt_getElem, blockAt_getElem, List.getD_append _ _ _ _ (by omega)]

@[simp] theorem chain_zero (m : List Byte) : chain m 0 = initialAcc := rfl

theorem chain_succ (m : List Byte) (k : Nat) : chain m (k + 1) = blockStep (chain m k) (blockAt m k) := rfl

/-- The chaining value after k whole blocks does not see what is appended after them. -/
theorem chain_append {m : List Byte} (rest : List Byte) {k : Nat} (h : 64 * k ≤ m.length) :
    chain (m ++ rest) k = chain m k := by
  induction k with
  | zero => rfl
  | succ k ih => rw [chain_succ, chain_succ, ih (by omega), blockAt_append rest h]

/-- The schedule has 16 words and one more per step. -/
@[simp] theorem schedule_length (block : Vector Byte 64) (n : Nat) : (schedule block n).length = n + 16 := by
  induction n with
  | zero => simp [schedule]
  | succ n ih => simp [schedule, ih, Nat.add_right_comm]

/-- Longer schedules begin with the shorter ones. -/
theorem schedule_getD (block : Vector Byte 64) (n k : Nat) {t : Nat} (h : t < n + 16) :
    (schedule block (n + k)).getD t 0 = (schedule block n).getD t 0 := by
  induction k with
  | zero => rfl
  | succ k ih =>
    rw [← ih, ← Nat.add_assoc]
    simp only [schedule]
    rw [List.getD_append _ _ _ _ (by rw [schedule_length]; omega)]

end Sys2Proof.Sha1
end

