-- ==== Sys2Proof/Laws/Timing.lean ====
section
/-! SUPPORT. The counts of Machine/Timing.lean belong to the bytes the engine absorbs (spec/70_reset_and_hazards.md
R255). -/

namespace Sys2Proof.Machine

@[simp] theorem compressionsOf_nil (e : Engine) : compressionsOf e [] = 0 := rfl

/-- Each byte that fills the buffer runs one compression, so a run of bytes runs as many as it completes blocks. -/
theorem compressionsOf_eq (bs : List Byte) (e : Engine) :
    compressionsOf e bs = (e.bufcnt.toNat + bs.length) / 64 := by
  induction bs generalizing e with
  | nil =>
    have := e.bufcnt.isLt
    simp only [compressionsOf_nil, List.length_nil]
    omega
  | cons b bs ih =>
    have := e.bufcnt.isLt
    rw [compressionsOf, ih, absorb_bufcnt, List.length_cons, BitVec.toNat_add, show (1 : BitVec 6).toNat = 1 from rfl]
    split
    · next h =>
      rw [h, show (63 : BitVec 6).toNat = 63 from rfl]
      omega
    · next h =>
      have : e.bufcnt.toNat ≠ 63 := fun hn => h (BitVec.eq_of_toNat_eq hn)
      omega

/-- Where the padding loop ends, the bytes it absorbed are those of `padZeros`. -/
theorem padZero_absorbs {fuel : Nat} {e p : Engine} (h : padZero fuel e = some p) :
    p = absorbAll e (padZeros fuel e) := by
  induction fuel generalizing e with
  | zero =>
    simp only [padZero, Option.ite_none_right_eq_some, Option.some.injEq] at h
    exact h.2.symm
  | succ fuel ih =>
    unfold padZero at h
    unfold padZeros
    split at h
    · next hb => simpa [hb] using (Option.some.inj h).symm
    · next hb => simpa [hb] using ih h

/-- Where FINAL's padding ends, the bytes it absorbed are those its compressions are counted over. -/
theorem padMessage_absorbs {e p : Engine} (h : padMessage e = some p) :
    p = absorbAll e (0x80 :: padZeros padFuel (absorb e 0x80) ++ lengthBytes e.bitcnt) := by
  obtain ⟨q, hq, rfl⟩ := Option.map_eq_some_iff.mp h
  rw [padZero_absorbs hq, List.cons_append, absorbAll_cons, absorbAll_append]

end Sys2Proof.Machine
end

