-- ==== Sys2Proof/Tests/Slice0.lean ====
section
/-! SUPPORT. The model's own tests. Expected values come from spec/95_test_vectors.md (named V-… or P…) and from the
rules' own tables. The witness theorems at the end show a concrete state and operands that meet the hypotheses of each
statement of Certificates/Slice0/Obligations.lean. -/

namespace Sys2Proof.Tests

open Sys2Proof.Machine
open Host (Outcome)

/-! ### States the tests start from -/

/-- Right after INIT (R131, V-INIT-1). -/
def ready : State := { State.reset with eng := reinit State.reset.eng, initd := true }

/-- After INIT, with the bytes absorbed. -/
def readyWith (bs : List Byte) : State := { ready with eng := absorbAll ready.eng bs }

/-- After WDATA seed; SEED (R181). -/
def seeded (seed : Word) : State := { State.reset with prng := seed, seeded := true }

/-- The field of the next state, where there is one. -/
def after {α : Type} (o : Outcome State Fault Refusal) (f : State → α) : Option α :=
  match o with
  | .next t => some (f t)
  | .fault _ => none
  | .refused _ => none

/-- The salt registers as the Host reads them. -/
def saltRegs (s : State) : List Word := [saltWord s.salt 0, saltWord s.salt 1, saltWord s.salt 2, saltWord s.salt 3]

/-! ### WellFormed: each check refuses -/

theorem test_wellFormed_refuses_update_32 : (Instr.update 32).wellFormed = false := by decide
theorem test_wellFormed_refuses_saltGen_32 : (Instr.saltGen 32).wellFormed = false := by decide
theorem test_wellFormed_takes_update_31 : (Instr.update 31).wellFormed = true := by decide

/-! ### Decoding: words written out from R100 (RSV = 31:13, N = 12:8, OPC = 7:0) and R103 -/

theorem test_decode_nop : decode (0b0000000000000000000_00000_00000000#32) = .ok .nop := by decide
theorem test_decode_init : decode (0b0000000000000000000_00000_00000001#32) = .ok .init := by decide
theorem test_decode_update : decode (0b0000000000000000000_00100_00000010#32) = .ok (.update 4) := by decide
theorem test_decode_final : decode (0b0000000000000000000_00000_00000011#32) = .ok .final := by decide
theorem test_decode_seed : decode (0b0000000000000000000_00000_00010000#32) = .ok .seed := by decide
theorem test_decode_saltGen : decode (0b0000000000000000000_10000_00010001#32) = .ok (.saltGen 16) := by decide
theorem test_decode_clrErr : decode (0b0000000000000000000_00000_00100000#32) = .ok .clrErr := by decide

/-- V-ENC-2, V-ENC-3, V-ENC-5: each class of R105, by name. -/
theorem test_decode_rejects_by_name :
    decode 0x00000004 = .error .reservedOpcode ∧ decode 0x00000101 = .error .nonzeroCount ∧
      decode 0x00002102 = .error .reservedBits := by decide

theorem test_classify :
    classify 0x00000402 = .legal ∧ classify 0x00000502 = .outOfRange ∧ classify 0x00001111 = .outOfRange ∧
      classify 0x00000120 = .illegal := by decide

theorem test_decodeTableWord : decodeTableWord 32 0x00000611 = some (.saltGen 6) := by decide

/-- No two rows of the opcode table cover one word: they differ in a bit that both masks fix. -/
theorem test_opcode_rows_disjoint :
    opcodeTable.Pairwise fun r r' => r.pattern &&& (r.mask &&& r'.mask) ≠ r'.pattern &&& (r.mask &&& r'.mask) := by
  decide

/-! ### The hash engine -/

/-- V-CMP-1: in the compression of the padded "abc", round 16 uses W16 = c2c4c700 and leaves a = 4e925823. -/
theorem test_round_16 :
    let x := rounds 17 (loadWorking initialAcc (Sha1.blockAt (Sha1.padded [0x61, 0x62, 0x63]) 0) Working.zero)
    windowSlot x.w 16 = 0xc2c4c700 ∧ x.a = 0x4e925823 ∧ x.c = 0xc65afb9d := by decide +kernel

/-- V-UPD-1. -/
theorem test_update_abc :
    after (exec (.update 3) { ready with data := 0x61626300 }) (fun t => (statusWord t, t.eng.bitcnt, t.data)) =
      some (0x00030002, 24, 0) := by decide +kernel

/-- V-UPD-7: the compression runs after the second byte, and two bytes stay in the buffer. -/
theorem test_update_across_a_block :
    after (exec (.update 4) { readyWith (List.replicate 62 0x61) with data := 0x62626262 })
      (fun t => (statusWord t, t.eng.bitcnt, t.eng.h)) =
      some (0x00020002, 528, #v[0x99a552ee, 0xb1a7e15c, 0xfb6fbc93, 0x406f3d20, 0x46096ff9]) := by decide +kernel

/-- V-SRC-2. -/
theorem test_final_abc :
    after (exec .final (readyWith [0x61, 0x62, 0x63])) (fun t => (t.digest, statusWord t)) =
      some (#v[0xa9993e36, 0x4706816a, 0xba3e2571, 0x7850c26c, 0x9cd0d89d], 0x00000006) := by decide +kernel

/-- V-FIN-5: 56 bytes of "a" take two compressions. -/
theorem test_final_two_blocks :
    after (exec .final (readyWith (List.replicate 56 0x61))) (fun t => t.digest) =
      some #v[0xc2db330f, 0x6083854c, 0x99d4b5bf, 0xb6e8f29f, 0x201be699] := by decide +kernel

/-- V-INIT-3: INIT after FINAL zeroizes the digest and clears DV. -/
theorem test_init_after_final :
    after (exec .init { ready with digest := Vector.replicate 5 1, dv := true }) (fun t => (statusWord t, t.digest)) =
      some (0x00000002, Vector.replicate 5 0) := by decide

/-- V-UPD-8, V-UPD-9, V-FIN-12: errors from reset. -/
theorem test_hash_errors :
    after (exec (.update 1) State.reset) statusWord = some 0x00000310 ∧
      after (exec (.update 5) State.reset) statusWord = some 0x00000210 ∧
      after (exec .final State.reset) statusWord = some 0x00000310 := by decide

/-! ### The salt generator -/

/-- V-SEED-1. -/
theorem test_seed :
    after (exec .seed { State.reset with data := 1 }) (fun t => (statusWord t, t.prng, t.data)) =
      some (0x00000008, 1, 0) := by decide

/-- V-SALT-1. -/
theorem test_saltGen_8 :
    after (exec (.saltGen 8) (seeded 1)) (fun t => (saltRegs t, statusWord t)) =
      some ([0x467E414B, 0x4B5B623B, 0, 0], 0x08000008) := by decide +kernel

/-- V-SALT-5. -/
theorem test_saltGen_16 :
    after (exec (.saltGen 16) (seeded 0xDEADBEEF)) (fun t => (saltRegs t, statusWord t)) =
      some ([0x61396621, 0x53455428, 0x63357F58, 0x5F562A52], 0x10000008) := by decide +kernel

/-! ### Control, the Core agent, the Host and Reset -/

theorem test_nop : exec .nop ready = .next ready := rfl

/-- V-ERR-1. -/
theorem test_clrErr : after (exec .clrErr (raiseError .noinit State.reset)) statusWord = some 0x00000000 := by decide

/-- V-ERR-2: the first error is kept. -/
theorem test_first_error_kept :
    after (executeWord 0x00000004 (raiseError .noinit State.reset)) statusWord = some 0x00000310 := by decide

/-- The first step after reset runs the word placed for it, and clears PEND. -/
theorem test_withFetchWord_runs :
    after (step (State.reset.withFetchWord 32 0x00000001)) (fun t => (statusWord t, t.pend)) =
      some (0x00000002, none) := by decide +kernel

/-- V-BUS-2: a write to DIGEST0 is ignored. -/
theorem test_write_digest_ignored :
    hostWrite 0x20 .word 0x12345678 ready = .next ready := by rfl

/-- A Host read of BITCNT_LO with BUSY = 0 (R71), by a step. -/
theorem test_read_bitcnt :
    after (step { readyWith [0x61, 0x62, 0x63] with env := [.hostRead 0x10 .word] }) (fun t => t.lastRead) =
      some (some 24) := by decide +kernel

/-- P5 (b): FINAL written while INIT is pending is dropped with OVERRUN. -/
theorem test_overrun :
    after (step { State.reset with pend := some 1, env := [.hostWrite 0 .word 3] }) (fun t => (t.pend, t.err, t.errcode)) =
      some (some 1, true, 6) := by decide

/-- V-RST-1, with a command pending. -/
theorem test_reset_event :
    after (step { ready with pend := some 3, env := [.reset] }) (fun t => (statusWord t, t.pend, t.digest)) =
      some (0, none, Vector.replicate 5 0) := by decide

/-- R110: ABSORB "abc" is one chunk, P1's transactions. -/
theorem test_absorb_expansion :
    HostOp.expand (.absorb [0x61, 0x62, 0x63]) = [.wr 0x08 0x61626300, .wr 0x00 0x00000302, .poll] := by decide

/-- R110, R111: the events of "UPDATE 3; WAIT" when one poll sees BUSY = 1. -/
theorem test_program_events :
    programEvents Config.defaults 1 [.command (.update 3), .wait] =
      [.hostWrite 0 .word 0x00000302, .hostRead 4 .word, .coreStep, .hostRead 4 .word] := by decide

/-! ### Witnesses: the hypotheses of the statements are met -/

theorem ready_engine : EngineReady ready.eng :=
  { whole_bytes := by decide, bufcnt_eq := by decide, rest_zero := by simp [ready] }

theorem ready_invariant : Invariant ready :=
  { work_zero := rfl
    ready := fun _ => ready_engine
    noinit_empty := fun _ => ⟨rfl, rfl⟩
    noinit_dv := fun _ => rfl
    digest_zero := fun _ => rfl
    no_error := fun _ => rfl
    error_code := fun h => by cases h
    unseeded := fun _ => rfl
    saltlen_le := by decide
    salt_band := fun j h => absurd h (Nat.not_lt_zero _)
    salt_rest := fun j _ => by simp [ready, State.reset] }

theorem ready_represents_empty : Represents ready.eng [] :=
  { bitcnt_eq := rfl
    bufcnt_eq := rfl
    buf_eq := (Sha1.blockAt_of_length_le (by simp)).symm
    h_eq := rfl }

theorem witness_DecodeOfEncodeIsTheCommand : (Instr.saltGen 31).wellFormed = true := by decide
theorem witness_EncodeOfDecodedWordIsTheWord : decode 0x00001F02 = .ok (.update 31) := by decide
theorem witness_IllegalWordsAreTheThreeClasses :
    decode 0x00002001 = .error .reservedBits ∧ decode 0x000000FF = .error .reservedOpcode ∧
      decode 0x00000120 = .error .nonzeroCount := by decide
theorem witness_OutOfRangeCountsAreRejected :
    (5 ≤ 5 ∧ 5 ≤ 31) ∧ (5 ≤ 31 ∧ 31 ≤ 31) ∧ (17 ≤ 17 ∧ 17 ≤ 31) ∧ (17 ≤ 31 ∧ 31 ≤ 31) := by decide
theorem witness_DecoderAgreesWithTheOpcodeTable :
    decode 0x00000010 = .ok .seed ∧ decode 0x00000012 = .error .reservedOpcode := by decide
theorem witness_StepRunsTheDecodedCommand :
    ({ ready with pend := some 1 } : State).pend = some 1 ∧ decode 1 = .ok .init ∧ decode 4 = .error .reservedOpcode ∧
      ({ ready with pend := some 1 } : State).env = [] ∧
      ({ ready with pend := some 1, env := [.coreStep] } : State).env = .coreStep :: [] ∧
      after (exec .init { ready with pend := some 1 }) (fun t => t.initd) = some true ∧
      after (coreStep { ready with pend := some 4 }) (fun t => t.errcode) = some 1 := by decide
/-- The clause about a FINAL that stops: FINAL with BITCNT = 1 is the padding fault of log 11. -/
theorem witness_StepRunsTheDecodedCommand_fault :
    exec .final { ready with eng := { ready.eng with bitcnt := 1 } } = .fault .paddingDiverges := by
  have hp : padMessage { ready.eng with bitcnt := 1 } = none := by decide +kernel
  simp [exec, execFinal, ready, State.reset] at hp ⊢
  rw [hp]
theorem witness_StepTakesTheNextEvent :
    ({ ready with env := [.hostRead 4 .word] } : State).env = .hostRead 4 .word :: [] ∧
      ({ ready with env := [.hostWrite 0 .word 1] } : State).env = .hostWrite 0 .word 1 :: [] ∧
      ({ ready with env := [.reset] } : State).env = .reset :: [] ∧ ready.env = [] ∧ ready.pend = none ∧
      ({ ready with env := [.coreStep] } : State).env = .coreStep :: [] := by decide
/-- One word for each clause: ILLEGAL, BADLEN, SALTLEN, NOINIT (UPDATE 4 and FINAL), NOSEED (SALT_GEN 16), none. -/
theorem witness_CommandErrorsFollowThePriorityOrder :
    after (executeWord 0x00002102 State.reset) (fun t => t.errcode) = some 1 ∧
      after (executeWord 0x00000502 State.reset) (fun t => t.errcode) = some 2 ∧
      after (executeWord 0x00001111 State.reset) (fun t => t.errcode) = some 5 ∧
      after (executeWord 0x00000402 State.reset) (fun t => t.errcode) = some 3 ∧
      after (executeWord 0x00000003 State.reset) (fun t => t.errcode) = some 3 ∧
      after (executeWord 0x00001011 State.reset) (fun t => t.errcode) = some 4 ∧
      after (executeWord 0x00000000 State.reset) (fun t => t.err) = some false := by decide
theorem witness_ErrorsDoNotBlockCommands :
    ready.withoutError = (raiseError .noinit ready).withoutError ∧ ready ≠ raiseError .noinit ready := by decide
theorem witness_CommandsWriteOnlyWhatTheSpecNames :
    exec .nop ready = .next ready ∧ Instr.nop ≠ .init ∧ Instr.nop ≠ .final ∧ Instr.nop ≠ .seed ∧
      Instr.nop ≠ .clrErr ∧ (∀ n, Instr.nop ≠ .update n) ∧ (∀ n, Instr.nop ≠ .saltGen n) ∧
      (raiseError .noinit ready).err = true ∧
      exec .nop (raiseError .noinit ready) = .next (raiseError .noinit ready) := by
  exact ⟨rfl, by decide, by decide, by decide, by decide, by simp, by simp, rfl, rfl⟩
theorem witness_NopDoesNothing :
    (0x00000100 : Word).extractLsb' 0 8 = 0 ∧ (0x00000100 : Word) ≠ 0 ∧
      ready.pend = none ∧ ({ ready with pend := some 3 } : State).pend = some 3 := by decide
theorem witness_InitStartsANewMessage :
    (0x00000101 : Word).extractLsb' 0 8 = 0x01 ∧ (0x00000101 : Word) ≠ 0x00000001 ∧
      exec .init State.reset = .next ready := ⟨by decide, by decide, rfl⟩
theorem witness_UpdateAbsorbsDataBytes :
    ready.initd = true ∧ State.reset.initd = false ∧ (1 ≤ 4 ∧ 4 ≤ 4) ∧
      (0x00002002 : Word).extractLsb' 0 8 = 0x02 ∧ (0x00002002 : Word).extractLsb' 13 19 ≠ 0 ∧
      exec .init State.reset = .next ready ∧
      exec (.update 3) { ready with data := 0x61626300 } = .next (readyWith [0x61, 0x62, 0x63]) :=
  ⟨rfl, rfl, by decide, by decide, by decide, rfl, rfl⟩
theorem witness_FinalPadsAndStoresTheDigest :
    State.reset.initd = false ∧ ready.initd = true ∧ EngineReady ready.eng ∧
      (0x00000103 : Word).extractLsb' 0 8 = 0x03 ∧ (0x00000103 : Word) ≠ 0x00000003 :=
  ⟨rfl, rfl, ready_engine, by decide, by decide⟩
theorem witness_SeedLoadsTheGenerator :
    (0x00000110 : Word).extractLsb' 0 8 = 0x10 ∧ (0x00000110 : Word) ≠ 0x00000010 ∧
      exec .seed { State.reset with data := 1 } = .next (seeded 1) := ⟨by decide, by decide, rfl⟩
theorem witness_SaltGenFillsTheBuffer :
    (16 ≤ 16 ∧ (seeded 1).seeded = true) ∧ ready.seeded = false ∧
      (0x00002011 : Word).extractLsb' 0 8 = 0x11 ∧ (0x00002011 : Word).extractLsb' 13 19 ≠ 0 ∧
      exec .seed { State.reset with cfg := Config.defaults, data := 1 } = .next (seeded 1) ∧
      ∃ u, exec (.saltGen 8) (seeded 1) = .next u :=
  ⟨by decide, rfl, by decide, by decide, rfl, _, rfl⟩
theorem witness_ClrErrClearsTheError :
    (0x00000120 : Word).extractLsb' 0 8 = 0x20 ∧ (0x00000120 : Word) ≠ 0x00000020 ∧
      ({ ready with pend := some 0x20 } : State).pend = some 0x00000020 ∧
      exec (.update 1) State.reset = .next (raiseError .noinit State.reset) ∧
      exec .clrErr (raiseError .noinit State.reset) = .next State.reset :=
  ⟨by decide, by decide, rfl, rfl, rfl⟩
theorem witness_AbsorbAppendsOneByte :
    (readyWith (List.replicate 62 1)).eng.bufcnt.toNat < 63 ∧ (readyWith (List.replicate 63 1)).eng.bufcnt.toNat = 63 := by
  decide +kernel
theorem witness_WindowHoldsTheUnrolledSchedule : 79 < 80 := by decide
theorem witness_AlignedUpdateWordIsAScheduleWord :
    ready.eng.bufcnt.toNat = 4 * (0 : Fin 15).val ∧
      (readyWith (List.replicate 56 1)).eng.bufcnt.toNat = 4 * (14 : Fin 15).val ∧
      (readyWith (List.replicate 60 1)).eng.bufcnt.toNat = 60 := by decide +kernel
theorem witness_StreamingEquivalence :
    ready.initd = true ∧ fedBytes [(0x61626300, 3)] = fedBytes [(0x61000000, 1), (0, 0), (0x62630000, 2)] := by decide
theorem witness_PaddingEndsOnABlockBoundary : EngineReady ready.eng := ready_engine
/-- Both sides of each bound: BUFCNT + n = 63 and 64, n = 4 and 5, BUFCNT = 55 and 56. -/
theorem witness_CompressionsPerCommand :
    ((readyWith (List.replicate 59 1)).initd = true ∧ (readyWith (List.replicate 59 1)).eng.bufcnt.toNat + 4 < 64) ∧
      ((readyWith (List.replicate 60 1)).initd = true ∧ 64 ≤ (readyWith (List.replicate 60 1)).eng.bufcnt.toNat + 4) ∧
      (4 < 5 ∧ State.reset.initd = false) ∧
      (EngineReady (readyWith (List.replicate 55 1)).eng ∧ (readyWith (List.replicate 55 1)).eng.bufcnt.toNat ≤ 55) ∧
      (EngineReady (readyWith (List.replicate 56 1)).eng ∧ 55 < (readyWith (List.replicate 56 1)).eng.bufcnt.toNat) :=
  ⟨by decide +kernel, by decide +kernel, by decide,
    ⟨{ whole_bytes := by decide +kernel, bufcnt_eq := by decide +kernel, rest_zero := by decide +kernel }, by decide +kernel⟩,
    ⟨{ whole_bytes := by decide +kernel, bufcnt_eq := by decide +kernel, rest_zero := by decide +kernel },
      by decide +kernel⟩⟩
theorem witness_UpdateExtendsTheMessage :
    exec .init State.reset = .next ready ∧ ready.initd = true ∧ Represents ready.eng [] :=
  ⟨rfl, rfl, ready_represents_empty⟩
theorem witness_FinalStoresTheDigestOfTheMessage : ready.initd = true ∧ Represents ready.eng [] :=
  ⟨rfl, ready_represents_empty⟩
theorem witness_SaltByteBandAndDistribution : (0x20 ≤ 0x20 ∧ 0x20 ≤ 0x7F) ∧ (0x20 ≤ 0x7F ∧ 0x7F ≤ 0x7F) := by decide
theorem witness_SaltGenContinuesOneSequence : (seeded 1).seeded = true ∧ 8 + 8 ≤ 16 := by decide
/-- Two states, one seed, different hash commands in between. -/
theorem witness_SaltDependsOnTheSeedAlone :
    ∃ s s' a a' b b' u u', s ≠ s' ∧ s.data = s'.data ∧ s.cfg = s'.cfg ∧
      exec .seed s = .next a ∧ runCommands [.init, .final] a = .next b ∧ exec (.saltGen 1) b = .next u ∧
      exec .seed s' = .next a' ∧ runCommands [.nop] a' = .next b' ∧ exec (.saltGen 1) b' = .next u' := by
  have hp : ∃ e, padMessage ready.eng = some e :=
    Option.isSome_iff_exists.mp (by decide +kernel)
  obtain ⟨e, he⟩ := hp
  have hf : exec .final { seeded 1 with eng := ready.eng, initd := true } = .next
      { seeded 1 with eng := reinit e, initd := true, digest := e.h, dv := true } := by
    simp [exec, execFinal, he]
  exact ⟨{ State.reset with data := 1 }, { ready with data := 1 }, seeded 1, { seeded 1 with eng := ready.eng, initd := true },
    { seeded 1 with eng := reinit e, initd := true, digest := e.h, dv := true },
    { seeded 1 with eng := ready.eng, initd := true }, _, _, by decide, rfl, rfl, rfl,
    (by rw [runCommands, show exec .init (seeded 1) = .next { seeded 1 with eng := ready.eng, initd := true } from rfl]
        simp only [runCommands, hf]), rfl, rfl, rfl, rfl⟩
/-- The last word, the last byte, and a narrow access at an aligned and at an unaligned offset. -/
theorem witness_OnlyAlignedWordAccessesAreDefined :
    (0x7C < 0x80 ∧ 0x7C % 4 = 0) ∧ (0x7F < 0x80 ∧ 0x7F % 4 ≠ 0) ∧ (AccessSize.half ≠ .word ∧ 0x7C % 4 = 0) ∧
      (AccessSize.byte ≠ .word ∧ 0x7F % 4 ≠ 0) := by decide
/-- Log 10: the width is looked at before the alignment. -/
theorem test_narrow_and_misaligned : hostRead 0x7F .half ready = .refused .narrowAccess := by rfl
theorem witness_AccessOutsideTheBlockFaults :
    ready.cfg.base + 0x80 ≤ 0x80 ∧ 0x7F < ({ ready with cfg := { ready.cfg with baseBlock := 1 } } : State).cfg.base := by
  decide
theorem witness_RegisterMapReads : ready.pend = none ∧ 0x7C < 0x80 ∧ 0x7C % 4 = 0 := by decide
theorem witness_ReadsWhileBusyAreUnspecified :
    ({ ready with pend := some 3 } : State).pend = some 3 ∧ 0x7C < 0x80 ∧ 0x7C % 4 = 0 := by decide
theorem witness_ReadsHaveNoSideEffects :
    hostRead 0x08 .word ready = .next { ready with lastRead := some 0 } ∧ ready.pend = none := ⟨rfl, rfl⟩
theorem witness_CmdWriteSubmitsOrOverruns :
    ready.pend = none ∧ ({ ready with pend := some 0 } : State).pend = some 0 := by decide
theorem witness_DataWriteLoadsOrOverruns :
    ready.pend = none ∧ ({ ready with pend := some 0xFFFFFFFF } : State).pend = some 0xFFFFFFFF := by decide
theorem witness_OtherWritesAreIgnored :
    (0x04 < 0x80 ∧ 0x04 % 4 = 0 ∧ 0x04 ≠ 0x00 ∧ 0x04 ≠ 0x08) ∧
      (0x7C < 0x80 ∧ 0x7C % 4 = 0 ∧ 0x7C ≠ 0x00 ∧ 0x7C ≠ 0x08) := by decide
theorem witness_PollingSeesCompletion :
    hostRead (ready.cfg.base + 0x04) .word ready = .next { ready with lastRead := some (statusWord ready) } ∧
      ∃ t v, hostRead (ready.cfg.base + 0x04) .word { ready with pend := some 3 } = .next t ∧ t.lastRead = some v :=
  ⟨rfl, _, _, rfl, rfl⟩
/-- A NOP followed by a CMD write, and INIT followed by a DATA write. -/
theorem witness_BusyHazardHasBothOutcomes :
    ready.pend = none ∧
      (∃ t, coreStep { ready with pend := some 0, env := [.hostWrite (ready.cfg.base + 0x00) .word 3] } = .next t) ∧
      ∃ t, coreStep { ready with pend := some 1, env := [.hostWrite (ready.cfg.base + 0x08) .word 3] } = .next t :=
  ⟨rfl, ⟨_, rfl⟩, _, rfl⟩
/-- Two states that differ in H and PRNG. -/
theorem witness_UnspecifiedResetValuesAreUnobservable :
    ∃ s s' t, s ≠ s' ∧ SameObservable s s' ∧ step s = .next t := by
  refine ⟨State.reset, { State.reset with eng := { State.reset.eng with h := Vector.replicate 5 1 }, prng := 1 },
    State.reset, by decide, ⟨rfl, ?_, ?_⟩, rfl⟩
  · intro h; cases h
  · intro h; cases h
theorem witness_EveryStepKeepsTheInvariant : Invariant ready ∧ step ready = .next ready := ⟨ready_invariant, rfl⟩
/-- A defined access to come. -/
theorem witness_SafeRunsNeverStop :
    Invariant { ready with env := [.hostRead 0x04 .word, .coreStep] } ∧
      ({ ready with env := [.hostRead 0x04 .word, .coreStep] } : State).envDefined = true :=
  ⟨{ ready_invariant with }, by decide⟩
/-- A pending command and a defined access to come, without and with a Reset after it. -/
theorem witness_AcceptedCommandsComplete :
    (Invariant { ready with pend := some 3, env := [.hostRead 0x04 .word] } ∧
      ({ ready with pend := some 3, env := [.hostRead 0x04 .word] } : State).envDefined = true ∧
      Event.reset ∉ ({ ready with pend := some 3, env := [.hostRead 0x04 .word] } : State).env) ∧
      Invariant { ready with pend := some 3, env := [.hostRead 0x04 .word, .reset] } ∧
      ({ ready with pend := some 3, env := [.hostRead 0x04 .word, .reset] } : State).envDefined = true :=
  ⟨⟨{ ready_invariant with }, by decide, by decide⟩, { ready_invariant with }, by decide⟩
/-- An UPDATE 3 pending on an engine that holds the empty message. -/
theorem witness_EveryStepKeepsTheEnginesMessage :
    ∃ s t, step s = .next t ∧ HoldsMessage s ∧ s.initd = true ∧ Represents s.eng [] ∧ s.env.head? ≠ some .reset ∧
      s.pend = some 0x00000302 :=
  ⟨{ ready with pend := some 0x00000302 }, _, rfl, fun _ => ⟨[], ready_represents_empty⟩, rfl, ready_represents_empty,
    by decide, rfl⟩
theorem witness_OnlyResetClearsInitdAndSeeded :
    ∃ s t, step s = .next t ∧ s.env.head? ≠ some .reset ∧ s.initd = true ∧ s.seeded = true :=
  ⟨{ ready with seeded := true }, _, rfl, by decide, rfl, rfl⟩
theorem witness_DigestChangesOnlyByInitFinalOrReset :
    ∃ s t, step s = .next t ∧ (t.digest ≠ s.digest ∨ t.dv ≠ s.dv) :=
  ⟨{ ready with dv := true, pend := some 1 }, _, rfl, .inr (by decide)⟩

end Sys2Proof.Tests
end

section
/-! The source's two known digests, each a run of the digest function over one padded block. -/

namespace Sys2Proof.Sha1

/-- V-SRC-1. The one block is 0x80 and zeros, the length 0 among them. -/
theorem digest_nil : digest [] = #v[0xda39a3ee, 0x5e6b4b0d, 0x3255bfef, 0x95601890, 0xafd80709] := by
  decide +kernel

/-- V-SRC-2. The one block is "abc", 0x80, zeros and the length 24. -/
theorem digest_abc :
    digest [0x61, 0x62, 0x63] = #v[0xa9993e36, 0x4706816a, 0xba3e2571, 0x7850c26c, 0x9cd0d89d] := by
  decide +kernel

end Sys2Proof.Sha1

namespace Sys2Proof

/-- Settles O29: both vectors, by evaluating the digest function. -/
theorem knownDigests : Obligations.KnownDigests := ⟨Sha1.digest_nil, Sha1.digest_abc⟩

end Sys2Proof
end

section
/-! SUPPORT. The words the decoder accepts (spec/30_encoding.md R100 to R107): each is the encoding of the command it
reads. -/

namespace Sys2Proof

open Machine

/-- An opcode that takes no count is accepted only with N = 0 (R105). -/
theorem withoutCount_ok {n : Nat} {i j : Instr} : withoutCount n i = .ok j ↔ n = 0 ∧ i = j := by
  unfold withoutCount
  split <;> simp_all

/-- The opcode map is read back by `Instr.opcode` and `Instr.count` (R103). -/
theorem decodeOpcode_ok {opc n : Nat} {i : Instr} (h : decodeOpcode opc n = .ok i) :
    opc = i.opcode.toNat ∧ n = i.count := by
  unfold decodeOpcode at h
  split at h
  case h_3 | h_6 => cases h; exact ⟨rfl, rfl⟩
  case h_8 => cases h
  all_goals
    obtain ⟨rfl, rfl⟩ := withoutCount_ok.mp h
    exact ⟨rfl, rfl⟩

/-- A word with the reserved bits 0 is put together from its other two fields (R100, R102). -/
theorem word_of_fields {w : Word} (h : rsvField w = 0) :
    w = (BitVec.ofNat 32 (countField w) <<< 8) ||| (opcField w).zeroExtend 32 := by
  have hw := w.isLt
  have hopc := (opcField w).isLt
  have hr : w.toNat / 2 ^ 13 % 2 ^ 19 = 0 := by
    simpa [rsvField, Nat.shiftRight_eq_div_pow] using congrArg BitVec.toNat h
  have hn : countField w = w.toNat / 2 ^ 8 := by
    simp only [countField, BitVec.extractLsb'_toNat, Nat.shiftRight_eq_div_pow]
    omega
  have hlow : (opcField w).toNat = w.toNat % 2 ^ 8 := by simp [opcField]
  have hshift : countField w <<< 8 < 2 ^ 32 := by
    rw [Nat.shiftLeft_eq]
    omega
  apply BitVec.eq_of_toNat_eq
  rw [BitVec.toNat_or, BitVec.toNat_shiftLeft, BitVec.toNat_ofNat, Nat.mod_eq_of_lt (a := countField w) (by omega),
    Nat.mod_eq_of_lt hshift, BitVec.toNat_setWidth, Nat.mod_eq_of_lt (a := (opcField w).toNat) (by omega),
    ← Nat.shiftLeft_add_eq_or_of_lt hopc, Nat.shiftLeft_eq]
  omega

/-- Encoding undoes decoding (R102, R107). -/
theorem encode_of_decode {w : Word} {i : Instr} (h : decode w = .ok i) : encode i = w := by
  unfold decode at h
  split at h
  · cases h
  · next hr =>
    obtain ⟨hopc, hcount⟩ := decodeOpcode_ok h
    rw [word_of_fields (w := w) (by simpa using hr), hcount, BitVec.eq_of_toNat_eq hopc, encode]

/-- The only word of INIT (R103). -/
theorem decode_eq_init {w : Word} (h : decode w = .ok .init) : w = 0x00000001 := (encode_of_decode h).symm

/-- The only word of FINAL (R103). -/
theorem decode_eq_final {w : Word} (h : decode w = .ok .final) : w = 0x00000003 := (encode_of_decode h).symm

end Sys2Proof
end

section
/-! SUPPORT. What a command can write (spec/10_state.md R30, the column 'written by'), and what one step of any agent
can do, each said once. -/

namespace Sys2Proof.Machine

open Host (Outcome)

/-! ### Which parts of the state a command writes -/

/-- The parts of the state with one column of R30's 'written by', for a command that answers a next state. -/
structure CommandFrame (i : Instr) (s t : State) : Prop where
  outside : t.pend = s.pend ∧ t.cfg = s.cfg ∧ t.env = s.env ∧ t.lastRead = s.lastRead ∧ t.freeCount = s.freeCount
  eng : i ≠ .init → i ≠ .final → (∀ n, i ≠ .update n) → t.eng = s.eng
  initd : i ≠ .init → t.initd = s.initd
  digest : i ≠ .init → i ≠ .final → t.digest = s.digest ∧ t.dv = s.dv
  seeded : i ≠ .seed → t.seeded = s.seeded
  prng : i ≠ .seed → (∀ n, i ≠ .saltGen n) → t.prng = s.prng
  salt : (∀ n, i ≠ .saltGen n) → t.salt = s.salt ∧ t.saltlen = s.saltlen
  data : i ≠ .seed → (∀ n, i ≠ .update n) → t.data = s.data
  error : i ≠ .clrErr → s.err = true → t.err = true ∧ t.errcode = s.errcode

/-- A rejected command writes ERR and ERRCODE, and those only where no error is recorded (R212). -/
theorem commandFrame_raiseError (i : Instr) (c : CmdError) (s : State) : CommandFrame i s (raiseError c s) := by
  constructor <;> simp +contextual

theorem exec_frame {i : Instr} {s t : State} (h : exec i s = .next t) : CommandFrame i s t := by
  cases i with
  | nop =>
    obtain rfl := Outcome.next.inj h
    constructor <;> simp
  | init =>
    obtain rfl := Outcome.next.inj h
    constructor <;> simp
  | update n =>
    obtain ⟨-, rfl⟩ | ⟨-, -, rfl⟩ | ⟨-, -, rfl⟩ | ⟨-, -, -, rfl⟩ := execUpdate_next h
    · exact commandFrame_raiseError ..
    · exact commandFrame_raiseError ..
    · constructor <;> simp
    · constructor <;> simp
  | final =>
    obtain ⟨-, rfl⟩ | ⟨-, e, -, rfl⟩ := execFinal_next h
    · exact commandFrame_raiseError ..
    · constructor <;> simp
  | seed =>
    obtain rfl := Outcome.next.inj h
    constructor <;> simp
  | saltGen n =>
    obtain ⟨-, rfl⟩ | ⟨-, -, rfl⟩ | ⟨-, -, rfl⟩ := execSaltGen_next h
    · exact commandFrame_raiseError ..
    · exact commandFrame_raiseError ..
    · constructor <;> simp
  | clrErr =>
    obtain rfl := Outcome.next.inj h
    constructor <;> simp

/-- Only INIT writes INITD, and it sets it (R131). -/
theorem exec_keeps_initd {i : Instr} {s t : State} (h : exec i s = .next t) (hs : s.initd = true) : t.initd = true := by
  by_cases hi : i = .init
  · subst hi
    obtain rfl := Outcome.next.inj h
    rfl
  · rw [(exec_frame h).initd hi, hs]

/-- Only SEED writes SEEDED, and it sets it (R181). -/
theorem exec_keeps_seeded {i : Instr} {s t : State} (h : exec i s = .next t) (hs : s.seeded = true) :
    t.seeded = true := by
  by_cases hi : i = .seed
  · subst hi
    obtain rfl := Outcome.next.inj h
    rfl
  · rw [(exec_frame h).seeded hi, hs]

/-! ### A step is a reset, a command, or quiet -/

/-- No command ran and no reset came: but for DATA, PEND and the model's own fields, at most an error was recorded. -/
def Quiet (s t : State) : Prop :=
  ∃ u, (u = s ∨ ∃ c, u = raiseError c s) ∧
    t = { u with
      data := t.data, pend := t.pend, env := t.env, lastRead := t.lastRead, freeCount := t.freeCount }

theorem Quiet.frame {s t : State} (h : Quiet s t) :
    t.eng = s.eng ∧ t.initd = s.initd ∧ t.digest = s.digest ∧ t.dv = s.dv ∧ t.seeded = s.seeded := by
  obtain ⟨u, rfl | ⟨c, rfl⟩, ht⟩ := h
  · rw [ht]; exact ⟨rfl, rfl, rfl, rfl, rfl⟩
  · rw [ht]; exact ⟨rfl, rfl, rfl, rfl, rfl⟩

/-- A command ran: the pending word is its word, and it ran on the state whose events to come are `env` (R104). -/
structure RanCommand (i : Instr) (s t : State) : Prop where
  turn : s.env = [] ∨ s.env.head? = some .coreStep
  word : ∃ w, s.pend = some w ∧ decode w = .ok i
  ran : ∃ env u, exec i { s with env := env } = .next u ∧ t = { u with pend := none }

theorem coreStep_ran_or_quiet {s t : State} {env : List Event} (ht : s.env = [] ∨ s.env.head? = some .coreStep)
    (h : coreStep { s with env := env } = .next t) : (∃ i, RanCommand i s t) ∨ Quiet s t := by
  obtain ⟨-, rfl⟩ | ⟨w, hw, ⟨r, -, rfl⟩ | ⟨i, u, hi, hu, rfl⟩⟩ := coreStep_next h
  · exact .inr ⟨s, .inl rfl, rfl⟩
  · exact .inr ⟨_, .inr ⟨_, rfl⟩, rfl⟩
  · exact .inl ⟨i, ht, ⟨w, hw, hi⟩, env, u, hu, rfl⟩

theorem hostRead_quiet {addr : Nat} {size : AccessSize} {s t : State} {env : List Event}
    (h : hostRead addr size { s with env := env } = .next t) : Quiet s t := by
  obtain ⟨-, -, -, -, rfl⟩ := access_next h
  obtain ⟨v, n, hr⟩ := hostReadReg_frame (regAt (addr - s.cfg.base)) { s with env := env }
  exact ⟨s, .inl rfl, by rw [hr]⟩

theorem hostWrite_quiet {addr : Nat} {size : AccessSize} {v : Word} {s t : State} {env : List Event}
    (h : hostWrite addr size v { s with env := env } = .next t) : Quiet s t := by
  obtain ⟨-, -, -, -, rfl⟩ := access_next h
  obtain ⟨-, -, hr⟩ | ⟨-, -, hr⟩ | ⟨-, -, hr⟩ | ⟨-, -, hr⟩ :=
    hostWriteReg_cases (regAt (addr - s.cfg.base)) v { s with env := env }
  · exact ⟨s, .inl rfl, by rw [hr]⟩
  · exact ⟨s, .inl rfl, by rw [hr]⟩
  · exact ⟨_, .inr ⟨_, rfl⟩, by rw [hr]; rfl⟩
  · exact ⟨s, .inl rfl, by rw [hr]⟩

theorem step_reset_or_ran_or_quiet {s t : State} (h : step s = .next t) :
    (∃ rest, s.env = .reset :: rest ∧ t = applyReset { s with env := rest }) ∨ (∃ i, RanCommand i s t) ∨ Quiet s t := by
  obtain ⟨env, he, hc⟩ | ⟨addr, size, rest, -, hr⟩ | ⟨addr, size, v, rest, -, hw⟩ | hreset := step_next h
  · have ht : s.env = [] ∨ s.env.head? = some .coreStep := he.imp And.left fun he => by simp [he]
    exact .inr (coreStep_ran_or_quiet ht hc)
  · exact .inr (.inr (hostRead_quiet hr))
  · exact .inr (.inr (hostWrite_quiet hw))
  · exact .inl hreset

/-- A step that no reset is the next event of. -/
theorem step_ran_or_quiet {s t : State} (h : step s = .next t) (hr : s.env.head? ≠ some .reset) :
    (∃ i, RanCommand i s t) ∨ Quiet s t := by
  obtain ⟨rest, he, -⟩ | h := step_reset_or_ran_or_quiet h
  · simp [he] at hr
  · exact h

end Sys2Proof.Machine

namespace Sys2Proof

open Machine

/-- Settles O11: each command's frame, from what it can answer. -/
theorem commandsWriteOnlyWhatTheSpecNames : Obligations.CommandsWriteOnlyWhatTheSpecNames := by
  intro i s t h
  obtain ⟨⟨hpend, hcfg, henv, hread, hfree⟩, heng, hinitd, hdigest, hseeded, hprng, hsalt, hdata, herror⟩ := exec_frame h
  exact ⟨hpend, hcfg, henv, hread, hfree, heng, hinitd, hdigest, hseeded, hprng, hsalt, hdata, herror⟩

/-- Settles O51: only INIT and SEED write the two flags, and they set them. -/
theorem onlyResetClearsInitdAndSeeded : Obligations.OnlyResetClearsInitdAndSeeded := by
  intro s t h hr
  obtain ⟨i, -, -, env, u, hu, rfl⟩ | hq := step_ran_or_quiet h hr
  · have hinitd := exec_keeps_initd hu
    have hseeded := exec_keeps_seeded hu
    exact ⟨hinitd, hseeded⟩
  · obtain ⟨-, hinitd, -, -, hseeded⟩ := hq.frame
    exact ⟨hinitd.trans, hseeded.trans⟩

/-- Settles O52: among the commands only INIT and FINAL write DIGEST and DV, and each has one word. -/
theorem digestChangesOnlyByInitFinalOrReset : Obligations.DigestChangesOnlyByInitFinalOrReset := by
  intro s t h hne
  obtain ⟨rest, he, -⟩ | ⟨i, hturn, ⟨w, hw, hd⟩, env, u, hu, rfl⟩ | hq := step_reset_or_ran_or_quiet h
  · exact .inl (by rw [he]; rfl)
  · refine .inr ⟨hturn, ?_⟩
    by_cases hi : i = .init
    · subst hi
      exact .inl (by rw [hw, decode_eq_init hd])
    · by_cases hf : i = .final
      · subst hf
        exact .inr (by rw [hw, decode_eq_final hd])
      · obtain ⟨hdigest, hdv⟩ := (exec_frame hu).digest hi hf
        exact absurd hne (by simp [hdigest, hdv])
  · obtain ⟨-, -, hdigest, hdv, -⟩ := hq.frame
    exact absurd hne (by simp [hdigest, hdv])

end Sys2Proof
end

section
/-! SUPPORT. STATUS (spec/10_state.md R46, R48): its value as a sum over the fields, and its bit 0. -/

namespace Sys2Proof.Machine

/-- Appending is a shift by the width of what is appended, and a sum. -/
theorem toNat_append_eq_add {m n : Nat} (x : BitVec m) (y : BitVec n) :
    (x ++ y).toNat = x.toNat * 2 ^ n + y.toNat := by
  rw [BitVec.toNat_append, ← Nat.shiftLeft_add_eq_or_of_lt y.isLt, Nat.shiftLeft_eq]

/-- BUSY is not a bit of the word that is read while BUSY = 0. -/
theorem statusWord_bit_zero (s : State) : (statusWord s).getLsbD 0 = false := by
  rw [statusWord, BitVec.getLsbD_append]
  rfl

theorem busyStatus_bit_zero (free : Word) : (busyStatus free).getLsbD 0 = true := by
  simp [busyStatus]

/-- What a STATUS read returns has bit 0 set exactly when a command is pending (R46, R251). -/
theorem hostReadReg_status_bit_zero {s : State} {v : Word} (h : (hostReadReg .status s).lastRead = some v) :
    v.getLsbD 0 = true ↔ s.pend ≠ none := by
  cases hp : s.pend with
  | none =>
    have hv : statusWord s = v := by simpa [hostReadReg, State.busy, hp, readReg] using h
    rw [← hv, statusWord_bit_zero]
    simp
  | some w =>
    have hv : busyStatus (Config.busyRead s.freeCount) = v := by
      simpa [hostReadReg, State.busy, hp, readRegBusy] using h
    rw [← hv, busyStatus_bit_zero]
    simp

end Sys2Proof.Machine

namespace Sys2Proof

open Machine

/-- Settles O41: the value of the fields appended, field by field. -/
theorem statusLayout : Obligations.StatusLayout := by
  intro s
  simp only [statusWord, toNat_append_eq_add, BitVec.toNat_ofBool, BitVec.toNat_ofNat]
  omega

/-- Settles O42: the access reaches STATUS, whose bit 0 is BUSY. -/
theorem pollingSeesCompletion : Obligations.PollingSeesCompletion := by
  intro s t v h hv
  obtain ⟨-, -, -, -, rfl⟩ := access_next h
  rw [Nat.add_sub_cancel_left] at hv
  exact hostReadReg_status_bit_zero hv

/-- Settles O45: the fields of State.reset. -/
theorem resetStateHoldsTheSpecsValues : Obligations.ResetStateHoldsTheSpecsValues :=
  ⟨rfl, rfl, rfl, rfl, rfl, rfl, rfl, rfl, rfl, rfl, rfl, rfl, rfl, by decide⟩

end Sys2Proof
end

section
/-! SUPPORT. The invariant of the machine (spec/10_state.md R33 to R51): each shared operation keeps the clauses it
writes, so each command keeps them all. -/

namespace Sys2Proof.Machine

open Host (Outcome)

/-! ### The engine's clauses -/

theorem engineReady_reinit (e : Engine) : EngineReady (reinit e) where
  whole_bytes := rfl
  bufcnt_eq := by simp
  rest_zero := by simp

theorem EngineReady.absorb {e : Engine} (h : EngineReady e) (b : Byte) : EngineReady (absorb e b) := by
  obtain ⟨hbytes, hcount, hrest⟩ := h
  have hbit : (Machine.absorb e b).bitcnt.toNat = (e.bitcnt.toNat + 8) % 2 ^ 64 := by simp
  have hbuf : (Machine.absorb e b).bufcnt.toNat = (e.bufcnt.toNat + 1) % 2 ^ 6 := by simp
  refine ⟨by omega, by omega, fun i hi => ?_⟩
  rw [hbuf] at hi
  by_cases hf : e.bufcnt = 63
  · simp [absorb_of_full b hf]
  · have hroom : e.bufcnt.toNat ≠ 63 := fun h => hf (BitVec.eq_of_toNat_eq h)
    have := hrest i (by omega)
    rw [Fin.getElem_fin] at this
    simp [absorb_of_room b hf, show e.bufcnt.toNat ≠ i.val by omega, this]

theorem EngineReady.absorbAll {e : Engine} (h : EngineReady e) (bs : List Byte) : EngineReady (absorbAll e bs) := by
  induction bs generalizing e with
  | nil => exact h
  | cons b bs ih => exact ih (h.absorb b)

/-- FINAL's padding is a run of Absorbs, so it leaves the working registers zeroized. -/
theorem padMessage_work {e p : Engine} (h : padMessage e = some p) (he : e.work = Working.zero) :
    p.work = Working.zero := by
  obtain ⟨z, -, rfl⟩ := padMessage_spec h
  exact absorbAll_work _ he

/-! ### The salt's clauses -/

/-- A salt byte lies in the band 0x20 .. 0x7F (R185). -/
theorem saltByte_band (x : Word) : 0x20 ≤ (saltByte x).toNat ∧ (saltByte x).toNat ≤ 0x7F := by
  simp only [saltByte, BitVec.toNat_ofNat]
  omega

/-! ### The invariant, operation by operation -/

theorem errorCode_range (c : CmdError) : 1 ≤ (errorCode c).toNat ∧ (errorCode c).toNat ≤ 6 := by
  cases c <;> decide

theorem Invariant.raiseError {s : State} (h : Invariant s) (c : CmdError) : Invariant (raiseError c s) :=
  { h with
    no_error := fun he => by simp at he
    error_code := fun _ => by
      cases hs : s.err with
      | false => simpa [hs] using errorCode_range c
      | true => simpa [hs] using h.error_code hs }

theorem Invariant.clearError {s : State} (h : Invariant s) : Invariant (clearError s) :=
  { h with
    no_error := fun _ => rfl
    error_code := fun he => by simp at he }

/-- The clauses hold of the reset values. -/
theorem invariant_reset : Invariant State.reset where
  work_zero := rfl
  ready h := nomatch h
  noinit_empty _ := ⟨rfl, rfl⟩
  noinit_dv _ := rfl
  digest_zero _ := rfl
  no_error _ := rfl
  error_code h := nomatch h
  unseeded _ := rfl
  saltlen_le := by decide
  salt_band j h := absurd h (Nat.not_lt_zero _)
  salt_rest j _ := by simp [State.reset]

/-- No clause reads H, buf or PRNG of a core in NOINIT, so the values they draw at a Reset do not matter (R240). -/
theorem invariant_applyReset (s : State) : Invariant (applyReset s) :=
  { invariant_reset with ready := fun h => nomatch h }

theorem Invariant.execInit {s t : State} (h : Invariant s) (ht : execInit s = .next t) : Invariant t := by
  obtain rfl := Outcome.next.inj ht
  exact
    { h with
      ready := fun _ => engineReady_reinit _
      noinit_empty := fun _ => ⟨rfl, rfl⟩
      noinit_dv := fun _ => rfl
      digest_zero := fun _ => rfl }

theorem Invariant.execUpdate {n : Nat} {s t : State} (h : Invariant s) (ht : execUpdate n s = .next t) :
    Invariant t := by
  obtain ⟨-, rfl⟩ | ⟨-, -, rfl⟩ | ⟨-, -, rfl⟩ | ⟨-, -, hi, rfl⟩ := execUpdate_next ht
  · exact h.raiseError _
  · exact h.raiseError _
  · exact h
  · exact
      { h with
        work_zero := absorbAll_work _ h.work_zero
        ready := fun _ => (h.ready hi).absorbAll _
        noinit_empty := fun hn => by simp [hi] at hn }

theorem Invariant.execFinal {s t : State} (h : Invariant s) (ht : execFinal s = .next t) : Invariant t := by
  obtain ⟨-, rfl⟩ | ⟨hi, e, he, rfl⟩ := execFinal_next ht
  · exact h.raiseError _
  · have hwork := padMessage_work he h.work_zero
    exact
      { h with
        work_zero := hwork
        ready := fun _ => engineReady_reinit _
        noinit_empty := fun _ => ⟨rfl, rfl⟩
        noinit_dv := fun hn => by simp [hi] at hn
        digest_zero := fun hn => by simp at hn }

theorem Invariant.execSaltGen {n : Nat} {s t : State} (h : Invariant s) (ht : execSaltGen n s = .next t) :
    Invariant t := by
  obtain ⟨-, rfl⟩ | ⟨-, -, rfl⟩ | ⟨hn, hs, rfl⟩ := execSaltGen_next ht
  · exact h.raiseError _
  · exact h.raiseError _
  · have hlen : (BitVec.ofNat 5 n).toNat = n := by
      rw [BitVec.toNat_ofNat]
      omega
    exact
      { h with
        unseeded := fun hu => by simp [hs] at hu
        saltlen_le := hlen.trans_le hn
        salt_band := fun j hj => by
          rw [fillSalt_byte _ _ _ _ (hj.trans_eq hlen)]
          exact saltByte_band _
        salt_rest := fun j hj => by
          rw [fillSalt_rest _ _ _ _ (hlen.symm.trans_le hj)]
          simp }

theorem Invariant.exec {i : Instr} {s t : State} (h : Invariant s) (ht : exec i s = .next t) : Invariant t := by
  cases i with
  | nop =>
    obtain rfl := Outcome.next.inj ht
    exact h
  | init => exact h.execInit ht
  | update n => exact h.execUpdate ht
  | final => exact h.execFinal ht
  | seed =>
    obtain rfl := Outcome.next.inj ht
    exact { h with unseeded := fun hs => by simp at hs }
  | saltGen n => exact h.execSaltGen ht
  | clrErr =>
    obtain rfl := Outcome.next.inj ht
    exact h.clearError

/-! ### The invariant, step by step -/

theorem Invariant.ranCommand {i : Instr} {s t : State} (h : Invariant s) (hr : RanCommand i s t) : Invariant t := by
  obtain ⟨-, -, env, u, hu, rfl⟩ := hr
  have hs : Invariant { s with env := env } := { h with }
  exact { hs.exec hu with }

theorem Invariant.quiet {s t : State} (h : Invariant s) (hq : Quiet s t) : Invariant t := by
  obtain ⟨u, rfl | ⟨c, rfl⟩, ht⟩ := hq
  · rw [ht]
    exact { h with }
  · rw [ht]
    exact { h.raiseError c with }

end Sys2Proof.Machine

namespace Sys2Proof

open Machine

/-- Settles O47: the reset values, and INITD = 0. -/
theorem invariantHoldsAtReset : Obligations.InvariantHoldsAtReset :=
  ⟨invariant_reset, fun h => nomatch h⟩

/-- Settles O48: a step is a reset, a command or quiet, and each keeps the invariant. -/
theorem everyStepKeepsTheInvariant : Obligations.EveryStepKeepsTheInvariant := by
  intro s t hs h
  obtain ⟨rest, -, rfl⟩ | ⟨i, hr⟩ | hq := step_reset_or_ran_or_quiet h
  · exact invariant_applyReset _
  · exact hs.ranCommand hr
  · exact hs.quiet hq

end Sys2Proof
end

section
/-! SUPPORT. Compress with its 16-word window computes the block function with the unrolled schedule
(spec/40_hash_engine.md R140 to R148): round by round, the working words are `fiveAfter` and the window holds the last
16 schedule words. -/

namespace Sys2Proof.Sha1

open Machine

/-- The first 16 schedule words are the block's (R142). -/
theorem scheduleWord_of_lt (block : Vector Byte 64) {t : Nat} (h : t < 16) :
    scheduleWord block t = blockWord block ⟨t, h⟩ := by
  rw [scheduleWord, schedule_getD block 0 64 h]
  simp [schedule, h]

/-- The recurrence of the schedule (R148). -/
theorem scheduleWord_add_16 (block : Vector Byte 64) {t : Nat} (h : t + 16 < 80) :
    scheduleWord block (t + 16) =
      rotl (scheduleWord block (t + 13) ^^^ scheduleWord block (t + 8) ^^^ scheduleWord block (t + 2) ^^^
        scheduleWord block t) 1 := by
  have hshort (k : Nat) (hk : k < t + 16) : scheduleWord block k = (schedule block t).getD k 0 := by
    rw [scheduleWord, ← schedule_getD block t (64 - t) hk, Nat.add_sub_cancel' (by omega)]
  have hlast : scheduleWord block (t + 16) = (schedule block (t + 1)).getD (t + 16) 0 := by
    rw [scheduleWord, ← schedule_getD block (t + 1) (63 - t) (by omega), show t + 1 + (63 - t) = 64 by omega]
  rw [hlast, hshort _ (by omega), hshort _ (by omega), hshort _ (by omega), hshort _ (by omega), schedule,
    List.getD_append_right _ _ _ _ (by simp)]
  simp

end Sys2Proof.Sha1

namespace Sys2Proof.Machine

open Sha1

/-! ### The window -/

theorem windowSlot_congr (w : Vector Word 16) {i j : Nat} (h : i % 16 = j % 16) : windowSlot w i = windowSlot w j := by
  simp only [windowSlot, h]

theorem windowStep_of_lt {t : Nat} (w : Vector Word 16) (h : t < 16) : windowStep t w = w := if_pos h

/-- From round 16 on, the round's own slot is replaced (R143). -/
theorem windowSlot_windowStep_self {t : Nat} (w : Vector Word 16) (h : 16 ≤ t) :
    windowSlot (windowStep t w) t =
      rotl (windowSlot w (t + 13) ^^^ windowSlot w (t + 8) ^^^ windowSlot w (t + 2) ^^^ windowSlot w t) 1 := by
  rw [windowStep, if_neg (by omega)]
  simp [windowSlot]

theorem windowSlot_windowStep_of_ne {t i : Nat} (w : Vector Word 16) (h : i % 16 ≠ t % 16) :
    windowSlot (windowStep t w) i = windowSlot w i := by
  unfold windowStep
  split
  · rfl
  · simp [windowSlot, h.symm]

/-- The window holds the 16 schedule words before word m. -/
def HoldsSchedule (w : Vector Word 16) (block : Vector Byte 64) (m : Nat) : Prop :=
  ∀ j, j < m → m ≤ j + 16 → windowSlot w j = scheduleWord block j

theorem holdsSchedule_loadWorking (h : Vector Word 5) (block : Vector Byte 64) (x : Working) :
    HoldsSchedule (loadWorking h block x).w block 16 := by
  intro j hj _
  rw [scheduleWord_of_lt block hj]
  simp [windowSlot, loadWorking, Nat.mod_eq_of_lt hj]

/-- Round t finds the window 16 words full, or one word further for each round from 16 on. -/
theorem HoldsSchedule.windowStep {w : Vector Word 16} {block : Vector Byte 64} {t : Nat} (ht : t < 80)
    (h : HoldsSchedule w block (max t 16)) : HoldsSchedule (windowStep t w) block (max (t + 1) 16) := by
  by_cases hlt : t < 16
  · rw [windowStep_of_lt w hlt, max_eq_right (by omega)]
    rwa [max_eq_right (by omega)] at h
  · obtain ⟨k, rfl⟩ := Nat.exists_eq_add_of_le' (Nat.le_of_not_lt hlt)
    rw [max_eq_left (by omega)] at h ⊢
    intro j hj hj16
    by_cases heq : j = k + 16
    · subst heq
      have hslot (d : Nat) (hd : d < 16) : windowSlot w (k + 16 + d) = scheduleWord block (k + d) := by
        rw [windowSlot_congr w (j := k + d) (by omega)]
        exact h _ (by omega) (by omega)
      rw [windowSlot_windowStep_self w (by omega), hslot 13 (by omega), hslot 8 (by omega), hslot 2 (by omega),
        show windowSlot w (k + 16) = _ from hslot 0 (by omega), scheduleWord_add_16 block ht]
      rfl
    · rw [windowSlot_windowStep_of_ne w (by omega)]
      exact h j (by omega) (by omega)

/-- The window after n rounds. -/
theorem holdsSchedule_rounds (h : Vector Word 5) (block : Vector Byte 64) (x : Working) {n : Nat} (hn : n ≤ 80) :
    HoldsSchedule (rounds n (loadWorking h block x)).w block (max n 16) := by
  induction n with
  | zero => exact holdsSchedule_loadWorking h block x
  | succ n ih => exact (ih (by omega)).windowStep (by omega)

/-- The word round t uses is Wt (R148). -/
theorem windowSlot_rounds (h : Vector Word 5) (block : Vector Byte 64) (x : Working) {t : Nat} (ht : t < 80) :
    windowSlot (rounds (t + 1) (loadWorking h block x)).w t = scheduleWord block t :=
  holdsSchedule_rounds h block x (by omega) t (by omega) (by omega)

/-! ### The working words and the compression -/

/-- The five working words of a compression. -/
def Working.five (x : Working) : Five := { a := x.a, b := x.b, c := x.c, d := x.d, e := x.e }

theorem five_rounds (h : Vector Word 5) (block : Vector Byte 64) (x : Working) {n : Nat} (hn : n ≤ 80) :
    (rounds n (loadWorking h block x)).five = fiveAfter h block n := by
  induction n with
  | zero => rfl
  | succ n ih =>
    rw [fiveAfter, ← ih (by omega), ← windowSlot_rounds h block x (by omega)]
    rfl

theorem compressAcc_eq_blockStep (h : Vector Word 5) (block : Vector Byte 64) (x : Working) :
    compressAcc h block x = blockStep h block := by
  have hfive := five_rounds h block x (Nat.le_refl 80)
  rw [compressAcc, blockStep]
  generalize rounds 80 (loadWorking h block x) = y at hfive ⊢
  simp only [← hfive]
  rfl

/-- What Compress folds into H is the block function of the buffer (R141, R146). -/
theorem compress_h (e : Engine) : (compress e).h = blockStep e.h e.buf := compressAcc_eq_blockStep e.h e.buf e.work

end Sys2Proof.Machine
end

section
/-! SUPPORT. The message the engine holds (spec/10_state.md R36, R37, R51(d), (e)): Absorb appends its byte to it,
across a compression too. -/

namespace Sys2Proof.Machine

open Host (Outcome)
open Sha1

/-- A byte appended to the message fills the next place of the last block. -/
theorem blockAt_concat (m : List Byte) (b : Byte) :
    blockAt (m ++ [b]) (m.length / 64) =
      (blockAt m (m.length / 64)).set (m.length % 64) b (Nat.mod_lt _ (by decide)) := by
  ext1 i hi
  rw [blockAt_getElem, Vector.getElem_set, blockAt_getElem]
  obtain hlt | heq | hgt : 64 * (m.length / 64) + i < m.length ∨ 64 * (m.length / 64) + i = m.length ∨
    m.length < 64 * (m.length / 64) + i := by omega
  · rw [if_neg (by omega), List.getD_append _ _ _ _ hlt]
  · rw [if_pos (by omega), heq, List.getD_append_right _ _ _ _ (Nat.le_refl _), Nat.sub_self]
    rfl
  · rw [if_neg (by omega), List.getD_eq_default _ _ hgt.le,
      List.getD_eq_default _ _ (by rw [List.length_append, List.length_singleton]; omega)]

theorem represents_reinit (e : Engine) : Represents (reinit e) [] where
  bitcnt_eq := rfl
  bufcnt_eq := rfl
  buf_eq := (blockAt_of_length_le (by simp)).symm
  h_eq := rfl

theorem Represents.bufcnt_toNat {e : Engine} {m : List Byte} (h : Represents e m) : e.bufcnt.toNat = m.length % 64 := by
  rw [h.bufcnt_eq, BitVec.toNat_ofNat]

/-- The buffer with one byte more is the last block of the longer message. -/
theorem Represents.buf_set {e : Engine} {m : List Byte} (h : Represents e m) (b : Byte) :
    e.buf.set e.bufcnt.toNat b e.bufcnt.isLt = blockAt (m ++ [b]) (m.length / 64) := by
  rw [blockAt_concat]
  simp only [h.bufcnt_toNat, h.buf_eq]

theorem Represents.h_concat {e : Engine} {m : List Byte} (h : Represents e m) (b : Byte) :
    e.h = chain (m ++ [b]) (m.length / 64) := by
  rw [h.h_eq, chain_append _ (Nat.mul_div_le _ _)]

/-- The byte that fills the buffer folds the block into H (R137, R138). -/
theorem Represents.absorb_full {e : Engine} {m : List Byte} (h : Represents e m) (b : Byte) (hf : e.bufcnt = 63) :
    (Machine.absorb e b).buf = blockAt (m ++ [b]) ((m.length + 1) / 64) ∧
      (Machine.absorb e b).h = chain (m ++ [b]) ((m.length + 1) / 64) := by
  have hlast : m.length % 64 = 63 := by rw [← h.bufcnt_toNat, hf]; rfl
  have hblock : e.buf.set 63 b = blockAt (m ++ [b]) (m.length / 64) := by
    have hset := h.buf_set b
    simp only [hf] at hset
    exact hset
  rw [absorb_of_full b hf, show (m.length + 1) / 64 = m.length / 64 + 1 by omega]
  constructor
  · rw [blockAt_of_length_le (by rw [List.length_append, List.length_singleton]; omega)]
  · rw [chain_succ, ← h.h_concat b, ← hblock, compress_h]

theorem Represents.absorb_room {e : Engine} {m : List Byte} (h : Represents e m) (b : Byte) (hf : e.bufcnt ≠ 63) :
    (Machine.absorb e b).buf = blockAt (m ++ [b]) ((m.length + 1) / 64) ∧
      (Machine.absorb e b).h = chain (m ++ [b]) ((m.length + 1) / 64) := by
  have hlast : m.length % 64 ≠ 63 := fun hm => hf (BitVec.eq_of_toNat_eq (h.bufcnt_toNat.trans hm))
  rw [absorb_of_room b hf, show (m.length + 1) / 64 = m.length / 64 by omega]
  exact ⟨h.buf_set b, h.h_concat b⟩

theorem Represents.absorb {e : Engine} {m : List Byte} (h : Represents e m) (b : Byte) :
    Represents (absorb e b) (m ++ [b]) := by
  have hlen : (m ++ [b]).length = m.length + 1 := by simp
  obtain ⟨hbuf, hh⟩ : (Machine.absorb e b).buf = blockAt (m ++ [b]) ((m.length + 1) / 64) ∧
      (Machine.absorb e b).h = chain (m ++ [b]) ((m.length + 1) / 64) := by
    by_cases hf : e.bufcnt = 63
    · exact h.absorb_full b hf
    · exact h.absorb_room b hf
  refine ⟨?_, ?_, by rw [hbuf, hlen], by rw [hh, hlen]⟩
  · rw [absorb_bitcnt, h.bitcnt_eq, hlen, Nat.mul_succ, BitVec.ofNat_add]
    rfl
  · rw [absorb_bufcnt, h.bufcnt_eq, hlen, BitVec.ofNat_add]
    rfl

theorem Represents.absorbAll {e : Engine} {m : List Byte} (h : Represents e m) (bs : List Byte) :
    Represents (absorbAll e bs) (m ++ bs) := by
  induction bs generalizing e m with
  | nil => simpa using h
  | cons b bs ih =>
    rw [List.append_cons]
    exact ih (h.absorb b)

/-! ### The message across a command -/

/-- INIT starts the empty message (R131). -/
theorem exec_init_represents {s t : State} (h : exec .init s = .next t) : Represents t.eng [] := by
  obtain rfl := Outcome.next.inj h
  exact represents_reinit _

/-- FINAL leaves the engine, where it is rejected, or starts the empty message (R150). -/
theorem exec_final_represents {s t : State} (h : exec .final s = .next t) :
    t.eng = s.eng ∨ Represents t.eng [] := by
  obtain ⟨-, rfl⟩ | ⟨-, e, -, rfl⟩ := execFinal_next h
  · exact .inl rfl
  · exact .inr (represents_reinit _)

/-- An accepted UPDATE of at least one byte absorbs its bytes and clears DATA (R134). -/
theorem exec_update_accepted {s : State} {n : Nat} (hi : s.initd = true) (h0 : n ≠ 0) (hn : n ≤ 4) :
    exec (.update n) s = .next { s with eng := absorbAll s.eng (dataBytes s.data n), data := 0 } := by
  rw [exec, execUpdate, if_neg (Nat.not_lt.mpr hn), if_neg (by simp [hi]), if_neg h0]

/-- An accepted UPDATE n appends the first n bytes of DATA (R134). -/
theorem exec_update_represents {s : State} {m : List Byte} {n : Nat} (hi : s.initd = true) (hn : n ≤ 4)
    (hm : Represents s.eng m) : ∃ t, exec (.update n) s = .next t ∧ Represents t.eng (m ++ dataBytes s.data n) := by
  by_cases h0 : n = 0
  · subst h0
    exact ⟨s, by simp [exec, execUpdate, hi], by simpa [dataBytes] using hm⟩
  · exact ⟨_, exec_update_accepted hi h0 hn, hm.absorbAll _⟩

/-- A rejected UPDATE leaves the engine (R134). -/
theorem exec_update_rejected {s t : State} {n : Nat} (hn : ¬ n ≤ 4) (h : exec (.update n) s = .next t) :
    t.eng = s.eng := by
  obtain ⟨-, rfl⟩ | ⟨hle, -⟩ | ⟨h0, -⟩ | ⟨-, hle, -⟩ := execUpdate_next h
  · rfl
  · exact absurd hle hn
  · exact absurd (h0.trans_le (Nat.zero_le 4)) hn
  · exact absurd hle hn

/-- What becomes of the message an initialised engine holds when a command answers. -/
theorem exec_represents {i : Instr} {s t : State} {m : List Byte} (h : exec i s = .next t) (hi : s.initd = true)
    (hm : Represents s.eng m) :
    Represents t.eng m ∨ (Represents t.eng [] ∧ (i = .init ∨ i = .final)) ∨
      ∃ n, i = .update n ∧ n ≤ 4 ∧ Represents t.eng (m ++ dataBytes s.data n) := by
  cases i with
  | init => exact .inr (.inl ⟨exec_init_represents h, .inl rfl⟩)
  | update n =>
    by_cases hn : n ≤ 4
    · obtain ⟨u, hu, hr⟩ := exec_update_represents hi hn hm
      obtain rfl := Outcome.next.inj (hu.symm.trans h)
      exact .inr (.inr ⟨n, rfl, hn, hr⟩)
    · exact .inl (exec_update_rejected hn h ▸ hm)
  | final =>
    obtain heng | hr := exec_final_represents h
    · exact .inl (heng ▸ hm)
    · exact .inr (.inl ⟨hr, .inr rfl⟩)
  | nop | seed | saltGen | clrErr => exact .inl ((exec_frame h).eng (by simp) (by simp) (by simp) ▸ hm)

/-! ### The message across a step that is no reset -/

theorem step_represents {s t : State} {m : List Byte} (h : (∃ i, RanCommand i s t) ∨ Quiet s t)
    (hi : s.initd = true) (hm : Represents s.eng m) :
    Represents t.eng m ∨
      (Represents t.eng [] ∧ (s.pend = some 0x00000001 ∨ s.pend = some 0x00000003)) ∨
      ∃ w n, s.pend = some w ∧ decode w = .ok (.update n) ∧ n ≤ 4 ∧ Represents t.eng (m ++ dataBytes s.data n) := by
  obtain ⟨i, -, ⟨w, hw, hd⟩, env, u, hu, rfl⟩ | hq := h
  · obtain hsame | ⟨hempty, rfl | rfl⟩ | ⟨n, rfl, hn, hext⟩ := exec_represents hu hi hm
    · exact .inl hsame
    · exact .inr (.inl ⟨hempty, .inl (by rw [hw, decode_eq_init hd])⟩)
    · exact .inr (.inl ⟨hempty, .inr (by rw [hw, decode_eq_final hd])⟩)
    · exact .inr (.inr ⟨w, n, hw, hd, hn, hext⟩)
  · obtain ⟨heng, -⟩ := hq.frame
    exact .inl (heng ▸ hm)

/-- The step that sets INITD ran INIT, so the engine holds the empty message (R131). -/
theorem step_initialises {s t : State} (h : (∃ i, RanCommand i s t) ∨ Quiet s t) (hs : s.initd = false)
    (ht : t.initd = true) : Represents t.eng [] := by
  obtain ⟨i, -, -, env, u, hu, rfl⟩ | hq := h
  · by_cases hi : i = .init
    · subst hi
      have hempty := exec_init_represents hu
      exact hempty
    · have hinitd := (exec_frame hu).initd hi
      exact nomatch (hinitd.trans hs).symm.trans ht
  · obtain ⟨-, hinitd, -⟩ := hq.frame
    exact nomatch (hinitd.trans hs).symm.trans ht

/-- Every step keeps that an initialised engine holds some message; after a reset the engine is not initialised. -/
theorem HoldsMessage.step {s t : State} (hs : HoldsMessage s) (h : step s = .next t) : HoldsMessage t := by
  intro ht
  obtain ⟨rest, -, rfl⟩ | hact := step_reset_or_ran_or_quiet h
  · cases ht
  · cases hi : s.initd with
    | false => exact ⟨[], step_initialises hact hi ht⟩
    | true =>
      obtain ⟨m, hm⟩ := hs hi
      obtain hsame | ⟨hempty, -⟩ | ⟨-, n, -, -, -, hext⟩ := step_represents hact hi hm
      · exact ⟨_, hsame⟩
      · exact ⟨_, hempty⟩
      · exact ⟨_, hext⟩

end Sys2Proof.Machine

namespace Sys2Proof

open Machine

/-- Settles O27: Absorb appends its byte, so UPDATE appends its bytes. -/
theorem updateExtendsTheMessage : Obligations.UpdateExtendsTheMessage :=
  ⟨fun _ _ => exec_init_represents, fun _ _ _ => exec_update_represents⟩

/-- Settles O54: by the command the step ran, if any; a reset leaves the engine uninitialised. -/
theorem everyStepKeepsTheEnginesMessage : Obligations.EveryStepKeepsTheEnginesMessage :=
  fun _ _ h => ⟨fun hs => hs.step h, fun _ hi hm hr => step_represents (step_ran_or_quiet h hr) hi hm⟩

end Sys2Proof
end

section
/-! SUPPORT. The Host's accesses (spec/20_memory.md R70 to R77): which are performed, refused or outside the block, what
a read returns and what a write does, and the step that performs the next event (R81). -/

namespace Sys2Proof.Machine

/-! ### Accesses that are not performed -/

theorem access_outside {addr : Nat} {size : AccessSize} {s : State} (act : Reg → State)
    (h : addr < s.cfg.base ∨ s.cfg.base + Params.blockSize ≤ addr) :
    access addr size s act = .fault .outsideBlock := by
  rw [access, if_pos h]

/-- Inside the block the width is looked at first (R72, log 10). -/
theorem access_narrow {off : Nat} {size : AccessSize} {s : State} (act : Reg → State) (hb : off < Params.blockSize)
    (hs : size ≠ .word) : access (s.cfg.base + off) size s act = .refused .narrowAccess := by
  rw [access, if_neg (by omega), if_pos hs]

theorem access_misaligned {off : Nat} {s : State} (act : Reg → State) (hb : off < Params.blockSize)
    (ha : off % 4 ≠ 0) : access (s.cfg.base + off) .word s act = .refused .misaligned := by
  rw [access, if_neg (by omega), if_neg (by simp), if_pos (by rwa [Nat.add_sub_cancel_left])]

/-! ### The register map (R71) -/

theorem regAt_eq_cmd {off : Nat} : regAt off = .cmd ↔ off = 0x00 := by
  constructor
  · unfold regAt
    split <;> simp
  · rintro rfl
    rfl

theorem regAt_eq_data {off : Nat} : regAt off = .data ↔ off = 0x08 := by
  constructor
  · unfold regAt
    split <;> simp
  · rintro rfl
    rfl

theorem regAt_digest (i : Fin 5) : regAt (0x20 + 4 * i.val) = .digest i := by
  revert i
  decide

theorem regAt_salt (i : Fin 4) : regAt (0x40 + 4 * i.val) = .salt i := by
  revert i
  decide

/-- Only STATUS, BITCNT, DIGEST and SALT read as anything but 0 (R71, R73). -/
theorem readReg_regAt_zero {off : Nat} (s : State)
    (h : off ∉ [0x04, 0x10, 0x14, 0x20, 0x24, 0x28, 0x2C, 0x30, 0x40, 0x44, 0x48, 0x4C]) :
    readReg (regAt off) s = 0 := by
  have hreg : regAt off = .cmd ∨ regAt off = .data ∨ regAt off = .reserved := by
    unfold regAt
    split <;> simp at h ⊢
  obtain hr | hr | hr := hreg <;> rw [hr] <;> rfl

/-! ### Reads (R73) -/

/-- An aligned word read of the block reads the register at its offset. -/
theorem hostRead_word {off : Nat} (s : State) (hb : off < 0x80) (ha : off % 4 = 0) :
    hostRead (s.cfg.base + off) .word s = .next (hostReadReg (regAt off) s) :=
  access_word _ hb ha

theorem hostReadReg_idle {s : State} (r : Reg) (h : s.pend = none) :
    hostReadReg r s = { s with lastRead := some (readReg r s) } := by
  simp [hostReadReg, State.busy, h]

@[simp] theorem hostReadReg_pend (r : Reg) (s : State) : (hostReadReg r s).pend = s.pend := by
  obtain ⟨v, n, h⟩ := hostReadReg_frame r s
  rw [h]

@[simp] theorem hostReadReg_cfg (r : Reg) (s : State) : (hostReadReg r s).cfg = s.cfg := by
  obtain ⟨v, n, h⟩ := hostReadReg_frame r s
  rw [h]

/-- No register shows what the Host last read or how many draws were taken. -/
theorem readReg_hostReadReg (r q : Reg) (s : State) : readReg r (hostReadReg q s) = readReg r s := by
  obtain ⟨v, n, h⟩ := hostReadReg_frame q s
  rw [h]
  cases r <;> rfl

theorem hostReadReg_idempotent {s : State} (r : Reg) (h : s.pend = none) :
    hostReadReg r (hostReadReg r s) = hostReadReg r s := by
  have hpend : (hostReadReg r s).pend = none := by rw [hostReadReg_pend, h]
  rw [hostReadReg_idle r hpend, readReg_hostReadReg, hostReadReg_idle r h]

/-! ### Writes (R74 to R76) -/

/-- An aligned word write to the block writes the register at its offset. -/
theorem hostWrite_word {off : Nat} (s : State) (v : Word) (hb : off < 0x80) (ha : off % 4 = 0) :
    hostWrite (s.cfg.base + off) .word v s = .next (hostWriteReg (regAt off) v s) :=
  access_word _ hb ha

theorem hostWriteReg_cmd_idle {s : State} (v : Word) (h : s.pend = none) :
    hostWriteReg .cmd v s = { s with pend := some v } := by
  simp [hostWriteReg, State.busy, h]

theorem hostWriteReg_data_idle {s : State} (v : Word) (h : s.pend = none) :
    hostWriteReg .data v s = { s with data := v } := by
  simp [hostWriteReg, State.busy, h]

/-- While a command is pending a write to CMD or DATA is dropped with OVERRUN. -/
theorem hostWriteReg_busy {r : Reg} {s : State} {w : Word} (v : Word) (hr : r = .cmd ∨ r = .data)
    (h : s.pend = some w) :
    hostWriteReg r v s = { s with err := true, errcode := if s.err then s.errcode else 6 } := by
  obtain rfl | rfl := hr
  · simp [hostWriteReg, State.busy, h, raiseError, errorCode]
  · simp [hostWriteReg, State.busy, h, raiseError, errorCode]

theorem hostWriteReg_other {r : Reg} (v : Word) (s : State) (hc : r ≠ .cmd) (hd : r ≠ .data) :
    hostWriteReg r v s = s := by
  obtain ⟨h, -⟩ | ⟨h, -⟩ | ⟨h, -⟩ | ⟨-, -, hw⟩ := hostWriteReg_cases r v s
  · exact absurd h hc
  · exact absurd h hd
  · exact absurd h (by simp [hc, hd])
  · exact hw

/-! ### The step of each event (R81) -/

section

variable {s : State} {rest : List Event}

theorem step_hostRead {addr : Nat} {size : AccessSize} (h : s.env = .hostRead addr size :: rest) :
    step s = hostRead addr size { s with env := rest } := by
  simp [step, h]

theorem step_hostWrite {addr : Nat} {size : AccessSize} {v : Word} (h : s.env = .hostWrite addr size v :: rest) :
    step s = hostWrite addr size v { s with env := rest } := by
  simp [step, h]

theorem step_reset (h : s.env = .reset :: rest) : step s = .next (applyReset { s with env := rest }) := by
  simp [step, h]

theorem step_coreStep (h : s.env = .coreStep :: rest) : step s = coreStep { s with env := rest } := by
  simp [step, h]

theorem step_no_event (h : s.env = []) : step s = coreStep s := by
  simp [step, h]

end

end Sys2Proof.Machine

namespace Sys2Proof

open Machine

/-- Settles O8: the step of each event; a Core step with nothing pending changes nothing. -/
theorem stepTakesTheNextEvent : Obligations.StepTakesTheNextEvent := fun _ _ =>
  ⟨fun _ _ => step_hostRead, fun _ _ _ => step_hostWrite, step_reset,
    fun he hp => (step_no_event he).trans (coreStep_none hp),
    fun he hp => (step_coreStep he).trans (coreStep_none hp)⟩

/-- Settles O33: an access inside the block is performed, narrow or misaligned. -/
theorem onlyAlignedWordAccessesAreDefined : Obligations.OnlyAlignedWordAccessesAreDefined := by
  intro s off size v hb
  refine ⟨?_, fun hs => ⟨access_narrow _ hb hs, access_narrow _ hb hs⟩, ?_⟩
  · rintro rfl ha
    exact ⟨⟨_, hostRead_word s hb ha⟩, ⟨_, hostWrite_word s v hb ha⟩⟩
  · rintro rfl ha
    exact ⟨access_misaligned _ hb ha, access_misaligned _ hb ha⟩

/-- Settles O34: reads and writes look at the block's bounds first. -/
theorem accessOutsideTheBlockFaults : Obligations.AccessOutsideTheBlockFaults :=
  fun _ _ _ _ h => ⟨access_outside _ h, access_outside _ h⟩

/-- Settles O35: the read returns the register the map has at the offset. -/
theorem registerMapReads : Obligations.RegisterMapReads := by
  intro s off hp hb ha
  refine ⟨readReg (regAt off) s, ?_, ?_, ?_, ?_, ?_, ?_, readReg_regAt_zero s⟩
  · rw [hostRead_word s hb ha, hostReadReg_idle _ hp]
  · rintro rfl
    rfl
  · rintro rfl
    rfl
  · rintro rfl
    rfl
  · rintro i rfl
    rw [regAt_digest]
    rfl
  · rintro i rfl
    rw [regAt_salt]
    rfl

/-- Settles O37: a read's frame, and its idempotence while BUSY = 0. -/
theorem readsHaveNoSideEffects : Obligations.ReadsHaveNoSideEffects := by
  intro s t addr size h
  obtain ⟨hlow, hhigh, rfl, halign, rfl⟩ := access_next h
  obtain ⟨off, rfl⟩ := Nat.exists_eq_add_of_le hlow
  rw [Nat.add_sub_cancel_left] at halign ⊢
  obtain ⟨v, n, hr⟩ := hostReadReg_frame (regAt off) s
  refine ⟨⟨_, _, hr⟩, fun hp => ?_⟩
  rw [← hostReadReg_cfg (regAt off) s, hostRead_word _ (Nat.lt_of_add_lt_add_left hhigh) halign,
    hostReadReg_idempotent _ hp]

/-- Settles O38: what a write to CMD does, idle and busy. -/
theorem cmdWriteSubmitsOrOverruns : Obligations.CmdWriteSubmitsOrOverruns := by
  intro s v
  rw [hostWrite_word s v (by decide) (by decide), regAt_eq_cmd.mpr rfl]
  exact ⟨fun hp => by rw [hostWriteReg_cmd_idle v hp], fun w hp => by rw [hostWriteReg_busy v (.inl rfl) hp]⟩

/-- Settles O39: what a write to DATA does, idle and busy. -/
theorem dataWriteLoadsOrOverruns : Obligations.DataWriteLoadsOrOverruns := by
  intro s v
  rw [hostWrite_word s v (by decide) (by decide), regAt_eq_data.mpr rfl]
  exact ⟨fun hp => by rw [hostWriteReg_data_idle v hp], fun w hp => by rw [hostWriteReg_busy v (.inr rfl) hp]⟩

/-- Settles O40: CMD and DATA stand at 0x00 and 0x08 only. -/
theorem otherWritesAreIgnored : Obligations.OtherWritesAreIgnored := by
  intro s off v hb ha hcmd hdata
  rw [hostWrite_word s v hb ha, hostWriteReg_other v s (mt regAt_eq_cmd.mp hcmd) (mt regAt_eq_data.mp hdata)]

end Sys2Proof
end

section
/-! SUPPORT. Encoding and decoding (spec/30_encoding.md R100 to R107): the decoder accepts a word exactly when its
fields are those of a command, and the rows of the opcode table cover the accepted words. -/

namespace Sys2Proof

/-! ### The words the decoder accepts -/

/-- A command's opcode and count are read as the command (R103). -/
theorem decodeOpcode_opcode_count (i : Instr) : decodeOpcode i.opcode.toNat i.count = .ok i := by
  cases i <;> rfl

/-- The decoder accepts exactly the words whose fields are a command's (R104). -/
theorem decode_eq_ok_iff {w : Word} {i : Instr} :
    decode w = .ok i ↔ rsvField w = 0 ∧ opcField w = i.opcode ∧ countField w = i.count := by
  by_cases hr : rsvField w = 0
  · rw [decode, if_neg (not_not.mpr hr)]
    constructor
    · intro h
      obtain ⟨hopc, hcount⟩ := decodeOpcode_ok h
      exact ⟨hr, BitVec.eq_of_toNat_eq hopc, hcount⟩
    · rintro ⟨-, hopc, hcount⟩
      rw [hopc, hcount, decodeOpcode_opcode_count]
  · rw [decode, if_pos hr]
    exact iff_of_false nofun fun ⟨hrsv, _⟩ => hr hrsv

/-- Only the count can keep a command from having an encoding (R100). -/
theorem wellFormed_iff_count_lt {i : Instr} : i.wellFormed = true ↔ i.count < 2 ^ 5 := by
  cases i <;> simp [Instr.wellFormed, Instr.count, countFits]

theorem encodedFields (i : Instr) : Laws.EncodedFields.Statement i := by
  cases i with
  | nop => exact Laws.EncodedFields.nop
  | init => exact Laws.EncodedFields.init
  | update n => exact Laws.EncodedFields.update n
  | final => exact Laws.EncodedFields.final
  | seed => exact Laws.EncodedFields.seed
  | saltGen n => exact Laws.EncodedFields.saltGen n
  | clrErr => exact Laws.EncodedFields.clrErr

theorem decode_encode {i : Instr} (h : i.wellFormed = true) : decode (encode i) = .ok i := by
  obtain ⟨hopc, hcount, hrsv⟩ := encodedFields i h
  exact decode_eq_ok_iff.mpr ⟨hrsv, hopc, hcount⟩

/-- The N field has 5 bits, so what is decoded has an encoding. -/
theorem wellFormed_of_decode {w : Word} {i : Instr} (h : decode w = .ok i) : i.wellFormed = true := by
  obtain ⟨-, -, hcount⟩ := decode_eq_ok_iff.mp h
  rw [wellFormed_iff_count_lt, ← hcount]
  exact (w.extractLsb' 8 5).isLt

/-- A number put together from an opcode and a count that fits has these fields (R100). -/
theorem fields_ofNat {n : Nat} (hn : n < 2 ^ 5) (opc : BitVec 8) :
    rsvField (BitVec.ofNat 32 (n * 256 + opc.toNat)) = 0 ∧ opcField (BitVec.ofNat 32 (n * 256 + opc.toNat)) = opc ∧
      countField (BitVec.ofNat 32 (n * 256 + opc.toNat)) = n := by
  have hopc := opc.isLt
  refine ⟨BitVec.eq_of_toNat_eq ?_, BitVec.eq_of_toNat_eq ?_, ?_⟩
  · simp only [rsvField, BitVec.extractLsb'_toNat, BitVec.toNat_ofNat, Nat.shiftRight_eq_div_pow,
      BitVec.ofNat_eq_ofNat]
    omega
  · simp only [opcField, BitVec.extractLsb'_toNat, BitVec.toNat_ofNat, Nat.shiftRight_eq_div_pow]
    omega
  · simp only [countField, BitVec.extractLsb'_toNat, BitVec.toNat_ofNat, Nat.shiftRight_eq_div_pow]
    omega

/-- The decoder reads a command back from its opcode and its count, the number (N << 8) | OPC (R102). -/
theorem decode_ofNat {i : Instr} (hn : i.count < 2 ^ 5) :
    decode (BitVec.ofNat 32 (i.count * 256 + i.opcode.toNat)) = .ok i :=
  decode_eq_ok_iff.mpr (fields_ofNat hn i.opcode)

/-! ### The words the decoder rejects -/

theorem countField_ne_zero {w : Word} : countField w ≠ 0 ↔ w.extractLsb' 8 5 ≠ 0 :=
  not_congr (BitVec.toNat_inj (y := 0#5))

theorem decode_error_iff {w : Word} : (∃ r, decode w = .error r) ↔ ¬∃ i, decode w = .ok i := by
  cases decode w <;> simp

/-- The opcode map (R103): the listed opcodes, with any count for UPDATE and SALT_GEN and with 0 for the others. -/
theorem exists_opcode_count_iff {opc : BitVec 8} {n : Nat} :
    (∃ i : Instr, opc = i.opcode ∧ n = i.count) ↔
      opc ∈ ([0x00, 0x01, 0x02, 0x03, 0x10, 0x11, 0x20] : List (BitVec 8)) ∧ (n = 0 ∨ opc = 0x02 ∨ opc = 0x11) := by
  constructor
  · rintro ⟨i, rfl, rfl⟩
    cases i <;> simp [Instr.opcode, Instr.count]
  · rintro ⟨hopc, hn⟩
    simp only [List.mem_cons, List.not_mem_nil, or_false] at hopc
    obtain rfl | rfl | rfl | rfl | rfl | rfl | rfl := hopc
    · exact ⟨.nop, rfl, by simpa [Instr.count] using hn⟩
    · exact ⟨.init, rfl, by simpa [Instr.count] using hn⟩
    · exact ⟨.update n, rfl, rfl⟩
    · exact ⟨.final, rfl, by simpa [Instr.count] using hn⟩
    · exact ⟨.seed, rfl, by simpa [Instr.count] using hn⟩
    · exact ⟨.saltGen n, rfl, rfl⟩
    · exact ⟨.clrErr, rfl, by simpa [Instr.count] using hn⟩

/-- The OPC values the map does not list are three ranges (R105). -/
theorem unlisted_opcode_iff (opc : BitVec 8) :
    opc ∉ ([0x00, 0x01, 0x02, 0x03, 0x10, 0x11, 0x20] : List (BitVec 8)) ↔
      ((0x04 ≤ opc.toNat ∧ opc.toNat ≤ 0x0F) ∨ (0x12 ≤ opc.toNat ∧ opc.toNat ≤ 0x1F) ∨
        (0x21 ≤ opc.toNat ∧ opc.toNat ≤ 0xFF)) := by
  have := opc.isLt
  simp only [List.mem_cons, List.not_mem_nil, or_false, ← BitVec.toNat_inj, BitVec.ofNat_eq_ofNat, BitVec.toNat_ofNat]
  omega

theorem decode_error_iff_classes (w : Word) :
    (∃ r, decode w = .error r) ↔
      rsvField w ≠ 0 ∨ opcField w ∉ ([0x00, 0x01, 0x02, 0x03, 0x10, 0x11, 0x20] : List (BitVec 8)) ∨
        (countField w ≠ 0 ∧ opcField w ≠ 0x02 ∧ opcField w ≠ 0x11) := by
  simp only [decode_error_iff, decode_eq_ok_iff, exists_and_left, exists_opcode_count_iff]
  tauto

/-! ### The rows of the opcode table -/

/-- The mask of a row with a count keeps OPC and RSV (R103). -/
theorem fields_of_countMask {w p : Word} (h : w &&& 0xFFFFE0FF = p) :
    rsvField w = rsvField p ∧ opcField w = opcField p := by
  subst h
  have hrsv : rsvField (w &&& 0xFFFFE0FF) = rsvField w := BitVec.extractLsb'_and.trans BitVec.and_allOnes
  have hopc : opcField (w &&& 0xFFFFE0FF) = opcField w := BitVec.extractLsb'_and.trans BitVec.and_allOnes
  exact ⟨hrsv.symm, hopc.symm⟩

/-- The rows that cover a command's word: its own alone. -/
theorem rows_covering_encode {i : Instr} (h : i.wellFormed = true) :
    (opcodeTable.filter (·.covers (encode i))).map (·.mnemonic) = [i.mnemonic] := by
  have hn := wellFormed_iff_count_lt.mp h
  cases i with
  | nop | init | final | seed | clrErr => decide
  | update n | saltGen n =>
    simp only [Instr.count] at hn
    interval_cases n <;> decide

/-- A word under a row of the table is accepted. -/
theorem decode_of_covers {r : OpcodeRow} {w : Word} (hr : r ∈ opcodeTable) (h : r.covers w = true) :
    ∃ i, decode w = .ok i := by
  have hmask : w &&& r.mask = r.pattern := by simpa [OpcodeRow.covers] using h
  have hword (hm : r.mask = 0xFFFFFFFF) : w = r.pattern := by
    rwa [hm, show (0xFFFFFFFF : Word) = BitVec.allOnes 32 from rfl, BitVec.and_allOnes] at hmask
  simp only [opcodeTable, List.mem_cons, List.not_mem_nil, or_false] at hr
  obtain rfl | rfl | rfl | rfl | rfl | rfl | rfl := hr
  · exact ⟨.nop, by rw [hword rfl]; rfl⟩
  · exact ⟨.init, by rw [hword rfl]; rfl⟩
  · obtain ⟨hrsv, hopc⟩ := fields_of_countMask hmask
    exact ⟨.update (countField w), decode_eq_ok_iff.mpr ⟨hrsv, hopc, rfl⟩⟩
  · exact ⟨.final, by rw [hword rfl]; rfl⟩
  · exact ⟨.seed, by rw [hword rfl]; rfl⟩
  · obtain ⟨hrsv, hopc⟩ := fields_of_countMask hmask
    exact ⟨.saltGen (countField w), decode_eq_ok_iff.mpr ⟨hrsv, hopc, rfl⟩⟩
  · exact ⟨.clrErr, by rw [hword rfl]; rfl⟩

end Sys2Proof

namespace Sys2Proof.Machine

/-! ### Counts out of range (R106) -/

theorem execUpdate_badlen {n : Nat} (s : State) (h : 4 < n) : execUpdate n s = .next (raiseError .badlen s) := if_pos h

theorem execSaltGen_saltlen {n : Nat} (s : State) (h : 16 < n) :
    execSaltGen n s = .next (raiseError .saltlen s) := if_pos h

end Sys2Proof.Machine

namespace Sys2Proof

open Machine

/-- Settles O1: the fields of an encoding are the command's. -/
theorem decodeOfEncodeIsTheCommand : Obligations.DecodeOfEncodeIsTheCommand := fun _ h => decode_encode h

/-- Settles O2: the fields of an accepted word are those of a command with an encoding. -/
theorem encodeOfDecodedWordIsTheWord : Obligations.EncodeOfDecodedWordIsTheWord :=
  fun _ _ h => ⟨wellFormed_of_decode h, encode_of_decode h⟩

/-- Settles O3: the rejected words are those whose fields are no command's. -/
theorem illegalWordsAreTheThreeClasses : Obligations.IllegalWordsAreTheThreeClasses :=
  ⟨fun w => (decode_error_iff_classes w).trans (by rw [countField_ne_zero]; rfl), unlisted_opcode_iff,
    fun _ _ s h => executeWord_error s h⟩

/-- Settles O5: a row covers the words of its own command and no others. -/
theorem decoderAgreesWithTheOpcodeTable : Obligations.DecoderAgreesWithTheOpcodeTable := by
  intro w
  constructor
  · intro i h
    rw [← encode_of_decode h]
    exact rows_covering_encode (wellFormed_of_decode h)
  · intro r h
    refine List.filter_eq_nil_iff.mpr fun row hrow hcovers => ?_
    exact decode_error_iff.mp ⟨r, h⟩ (decode_of_covers hrow hcovers)

/-- Settles O4: the word's fields are read back, and the count is checked first. -/
theorem outOfRangeCountsAreRejected : Obligations.OutOfRangeCountsAreRejected := by
  intro s
  constructor
  · intro n hlow hhigh
    have hd : decode (BitVec.ofNat 32 (n * 256 + 0x02)) = .ok (.update n) :=
      decode_ofNat (i := .update n) (Nat.lt_succ_of_le hhigh)
    exact ⟨hd, (executeWord_ok s hd).trans (execUpdate_badlen s hlow)⟩
  · intro n hlow hhigh
    have hd : decode (BitVec.ofNat 32 (n * 256 + 0x11)) = .ok (.saltGen n) :=
      decode_ofNat (i := .saltGen n) (Nat.lt_succ_of_le hhigh)
    exact ⟨hd, (executeWord_ok s hd).trans (execSaltGen_saltlen s hlow)⟩

/-- Settles O6: twelve fixed words. -/
theorem specWordsDecodeAsWritten : Obligations.SpecWordsDecodeAsWritten := by
  unfold Obligations.SpecWordsDecodeAsWritten
  decide

/-- Settles O7: what Execute answers, retired. -/
theorem stepRunsTheDecodedCommand : Obligations.StepRunsTheDecodedCommand := by
  intro s w rest hp
  refine ⟨fun i hd => ?_, fun r hd => ?_, step_no_event, step_coreStep, fun n v => ⟨rfl, step_coreStep rfl⟩⟩
  · have hstep : coreStep s = retire (exec i s) := by rw [coreStep_some hp, executeWord_ok s hd]
    exact ⟨fun t h => by rw [hstep, h]; rfl, fun f h => by rw [hstep, h]; rfl, fun r h => by rw [hstep, h]; rfl⟩
  · rw [coreStep_some hp, executeWord_error s hd]
    rfl

end Sys2Proof
end

section
/-! SUPPORT. The expansion of ABSORB (spec/30_encoding.md R110): the chunks its transactions are, and the bytes they
deliver. -/

namespace Sys2Proof.Machine

/-- The transactions of one chunk: a DATA write, the write of its UPDATE and a WAIT. -/
def chunkTransactions (u : Word × Nat) : List Transaction :=
  [.wr 0x08 u.1, .wr 0x00 (encode (.update u.2)), .poll]

/-- The transactions are those of the chunks, and the chunks deliver the bytes. -/
structure Delivers (ts : List Transaction) (us : List (Word × Nat)) (bs : List Byte) : Prop where
  expansion : ts = us.flatMap chunkTransactions
  counts : ∀ u ∈ us, 1 ≤ u.2 ∧ u.2 ≤ 4
  bytes : fedBytes us = bs

/-- The DATA word of a chunk and the count of its UPDATE. -/
def chunkOf (c : List Byte) : Word × Nat := (be32 (c.getD 0 0) (c.getD 1 0) (c.getD 2 0) (c.getD 3 0), c.length)

/-- UPDATE reads back the bytes of a chunk; the padding is not among them. -/
theorem dataBytes_chunkOf {c : List Byte} (h : c.length ≤ 4) : dataBytes (chunkOf c).1 (chunkOf c).2 = c := by
  rw [chunkOf, dataBytes_be32]
  match c, h with
  | [], _ | [_], _ | [_, _], _ | [_, _, _], _ | [_, _, _, _], _ => rfl

theorem Delivers.nil : Delivers [] [] [] where
  expansion := rfl
  counts := by simp
  bytes := rfl

theorem Delivers.cons {c bs : List Byte} {ts : List Transaction} {us : List (Word × Nat)} (hc : 1 ≤ c.length)
    (hc' : c.length ≤ 4) (h : Delivers ts us bs) : Delivers (absorbChunk c ++ ts) (chunkOf c :: us) (c ++ bs) where
  expansion := by rw [h.expansion]; rfl
  counts := List.forall_mem_cons.mpr ⟨⟨hc, hc'⟩, h.counts⟩
  bytes := by rw [fedBytes, List.flatMap_cons, dataBytes_chunkOf hc', ← h.bytes, fedBytes]

theorem Delivers.chunk {c : List Byte} (hc : 1 ≤ c.length) (hc' : c.length ≤ 4) :
    Delivers (absorbChunk c) [chunkOf c] c := by
  simpa using Delivers.nil.cons hc hc'

theorem absorbTransactions_delivers (bs : List Byte) : ∃ us, Delivers (absorbTransactions bs) us bs := by
  induction bs using absorbTransactions.induct with
  | case1 => exact ⟨[], .nil⟩
  | case2 b0 => exact ⟨_, .chunk (c := [b0]) (by simp) (by simp)⟩
  | case3 b0 b1 => exact ⟨_, .chunk (c := [b0, b1]) (by simp) (by simp)⟩
  | case4 b0 b1 b2 => exact ⟨_, .chunk (c := [b0, b1, b2]) (by simp) (by simp)⟩
  | case5 b0 b1 b2 b3 bs ih =>
    obtain ⟨us, h⟩ := ih
    exact ⟨_, h.cons (c := [b0, b1, b2, b3]) (by simp) (by simp)⟩

end Sys2Proof.Machine

namespace Sys2Proof

open Machine

/-- Settles O53: chunk by chunk. -/
theorem absorbExpansionDeliversItsBytes : Obligations.AbsorbExpansionDeliversItsBytes := by
  intro bs
  obtain ⟨us, hexpansion, hcounts, hbytes⟩ := absorbTransactions_delivers bs
  exact ⟨us, hexpansion, hcounts, hbytes⟩

end Sys2Proof
end

section
/-! SUPPORT. Words with an opcode of the map that spell no command (spec/30_encoding.md R105): Execute records ILLEGAL.
What INIT, UPDATE and FINAL answer (spec/40_hash_engine.md R131, R134, R150). -/

namespace Sys2Proof.Machine

/-! ### Malformed words -/

/-- The opcode of a command that takes no count is no other command's (R103). -/
theorem instr_eq_of_opcode {i j : Instr} (hj : j.maxCount = 0) (h : i.opcode = j.opcode) : i = j := by
  cases j with
  | update n | saltGen n => cases hj
  | nop | init | final | seed | clrErr => cases i <;> simp [Instr.opcode] at h ⊢

/-- Of the words with such an opcode, all but the command's own are illegal. -/
theorem executeWord_illegal_of_opcode {j : Instr} {w : Word} (s : State) (hj : j.maxCount = 0)
    (hopc : opcField w = j.opcode) (hw : w ≠ encode j) : executeWord w s = .next (raiseError .illegal s) := by
  cases hd : decode w with
  | error r => exact executeWord_error s hd
  | ok i =>
    obtain ⟨-, hi, -⟩ := decode_eq_ok_iff.mp hd
    obtain rfl := instr_eq_of_opcode hj (hi.symm.trans hopc)
    exact absurd (encode_of_decode hd).symm hw

theorem executeWord_illegal_of_rsv {w : Word} (s : State) (h : rsvField w ≠ 0) :
    executeWord w s = .next (raiseError .illegal s) := executeWord_error s (if_pos h)

/-! ### The hash commands -/

theorem exec_update_noinit {s : State} {n : Nat} (hn : n ≤ 4) (hi : s.initd = false) :
    exec (.update n) s = .next (raiseError .noinit s) := by
  rw [exec, execUpdate, if_neg (Nat.not_lt.mpr hn), if_pos hi]

theorem exec_update_zero {s : State} (hi : s.initd = true) : exec (.update 0) s = .next s := by
  simp [exec, execUpdate, hi]

theorem exec_final_noinit {s : State} (hi : s.initd = false) : exec .final s = .next (raiseError .noinit s) :=
  if_pos hi

/-- The bytes of an UPDATE are the first n lanes of DATA (R101, R135). -/
theorem dataBytes_eq_map {n : Nat} (v : Word) (hn : n ≤ 4) : dataBytes v n = (List.range n).map (byteLane v) := by
  have hlanes : dataBytes v n = ((List.range 4).map (byteLane v)).take n := rfl
  rw [hlanes, ← List.map_take, List.take_range, Nat.min_eq_left hn]

theorem dataBytes_length {n : Nat} (v : Word) (hn : n ≤ 4) : (dataBytes v n).length = n := by
  rw [dataBytes_eq_map v hn, List.length_map, List.length_range]

end Sys2Proof.Machine

namespace Sys2Proof

open Machine
open Host (Outcome)

/-- Settles O13: INIT's one record update, and the words of its opcode. -/
theorem initStartsANewMessage : Obligations.InitStartsANewMessage := by
  refine ⟨rfl, fun s => rfl, fun w s hopc hw => ?_, fun t ht => ?_⟩
  · exact executeWord_illegal_of_opcode (j := .init) s rfl hopc hw
  · obtain rfl := Outcome.next.inj ht
    exact ⟨by decide, rfl⟩

/-- Settles O14: one lemma per branch of UPDATE, and the counters of a run of Absorbs. -/
theorem updateAbsorbsDataBytes : Obligations.UpdateAbsorbsDataBytes := by
  intro s n
  refine ⟨fun _ => rfl, execUpdate_badlen s, exec_update_noinit, ?_, fun h1 hn hi => ?_,
    fun w _ hrsv => executeWord_illegal_of_rsv s hrsv, fun t u ht hu => ?_⟩
  · rintro rfl hi
    exact exec_update_zero hi
  · refine ⟨_, exec_update_accepted hi (Nat.one_le_iff_ne_zero.mp h1) hn, rfl, ?_, ?_⟩
    · rw [absorbAll_bufcnt, dataBytes_length _ hn, BitVec.toNat_add, BitVec.toNat_ofNat, Nat.add_mod_mod]
    · rw [absorbAll_bitcnt, dataBytes_length _ hn]
  · obtain rfl := Outcome.next.inj ht
    obtain rfl := Outcome.next.inj hu
    exact ⟨rfl, rfl, rfl, by decide⟩

end Sys2Proof
end

section
/-! SUPPORT. Where a run of Absorbs puts its bytes (spec/40_hash_engine.md R135 to R138): in the buffer from BUFCNT on,
and, when they fill it, in the block that is compressed. -/

namespace Sys2Proof.Machine

open Sha1

/-! ### One Absorb, byte by byte -/

/-- A byte that leaves room is stored at BUFCNT and counted (R137). -/
theorem absorb_of_lt {e : Engine} (b : Byte) (h : e.bufcnt.toNat < 63) :
    (absorb e b).bufcnt.toNat = e.bufcnt.toNat + 1 ∧ (absorb e b).h = e.h ∧
      (absorb e b).buf = e.buf.set e.bufcnt.toNat b e.bufcnt.isLt := by
  have hne : e.bufcnt ≠ 63 := fun hf => by simp [hf] at h
  refine ⟨?_, by rw [absorb_of_room b hne], by rw [absorb_of_room b hne]⟩
  rw [absorb_bufcnt, BitVec.toNat_add_of_lt (Nat.add_lt_add_right h 1)]
  rfl

/-- The byte that fills the buffer is compressed with the bytes before it (R138). -/
theorem absorb_h_of_full {e : Engine} (b : Byte) (h : e.bufcnt.toNat = 63) :
    (absorb e b).h = blockStep e.h (e.buf.set e.bufcnt.toNat b e.bufcnt.isLt) := by
  have h63 : e.bufcnt = 63 := BitVec.eq_of_toNat_eq h
  simp only [absorb_of_full b h63, compress_h, h]

theorem getElem_set_byte (buf : Vector Byte 64) {r : Nat} (hr : r < 64) (b : Byte) (i : Fin 64) :
    (buf.set r b hr)[i] = if i.val = r then b else buf[i] := by
  simp [Vector.getElem_set, eq_comm]

/-! ### The buffer with bytes written from a place on -/

/-- The buffer with these bytes written from place r on; bytes past its end are dropped. -/
def writeBytes (buf : Vector Byte 64) (r : Nat) (bs : List Byte) : Vector Byte 64 :=
  Vector.ofFn fun i : Fin 64 => if i.val < r then buf[i] else bs.getD (i.val - r) buf[i]

theorem writeBytes_getElem (buf : Vector Byte 64) (r : Nat) (bs : List Byte) {i : Nat} (hi : i < 64) :
    (writeBytes buf r bs)[i] = if i < r then buf[i] else bs.getD (i - r) buf[i] := by
  simp only [writeBytes, Vector.getElem_ofFn, Fin.getElem_fin]

theorem writeBytes_nil (buf : Vector Byte 64) (r : Nat) : writeBytes buf r [] = buf := by
  ext1 i hi
  rw [writeBytes_getElem, List.getD_nil, ite_self]

theorem writeBytes_cons (buf : Vector Byte 64) {r : Nat} (hr : r < 64) (b : Byte) (bs : List Byte) :
    writeBytes buf r (b :: bs) = writeBytes (buf.set r b hr) (r + 1) bs := by
  ext1 i hi
  rw [writeBytes_getElem, writeBytes_getElem, Vector.getElem_set]
  obtain hlt | heq | hgt := Nat.lt_trichotomy i r
  · rw [if_pos hlt, if_pos (Nat.lt_succ_of_lt hlt), if_neg (Nat.ne_of_gt hlt)]
  · rw [if_neg heq.not_lt, if_pos (by omega), if_pos heq.symm, show i - r = 0 by omega, List.getD_cons_zero]
  · rw [if_neg (by omega), if_neg (by omega), if_neg (by omega), show i - r = i - (r + 1) + 1 by omega,
      List.getD_cons_succ]

/-- Four lanes written at a word's place are that word of the block (R135, R142). -/
theorem blockWord_writeBytes (buf : Vector Byte 64) (v : Word) (i : Fin 16) :
    blockWord (writeBytes buf (4 * i.val) (dataBytes v 4)) i = v := by
  have hbyte (k : Nat) (hk : k < 4) :
      (writeBytes buf (4 * i.val) (dataBytes v 4))[4 * i.val + k] = byteLane v k := by
    rw [writeBytes_getElem, if_neg (by omega), Nat.add_sub_cancel_left]
    interval_cases k <;> rfl
  have hfirst := hbyte 0 (by decide)
  simp only [Nat.add_zero] at hfirst
  rw [blockWord, hfirst, hbyte 1 (by decide), hbyte 2 (by decide), hbyte 3 (by decide), be32_byteLanes]

/-! ### A run of Absorbs -/

/-- Bytes that leave room in the buffer are stored in it, and nothing is compressed. -/
theorem absorbAll_of_room {e : Engine} {bs : List Byte} (h : e.bufcnt.toNat + bs.length < 64) :
    (absorbAll e bs).h = e.h ∧ (absorbAll e bs).buf = writeBytes e.buf e.bufcnt.toNat bs := by
  induction bs generalizing e with
  | nil => exact ⟨rfl, (writeBytes_nil _ _).symm⟩
  | cons b bs ih =>
    rw [List.length_cons] at h
    have hf : e.bufcnt.toNat < 63 := by omega
    obtain ⟨hcnt, hh, hbuf⟩ := absorb_of_lt b hf
    rw [absorbAll_cons, writeBytes_cons _ e.bufcnt.isLt, ← hcnt, ← hbuf, ← hh]
    exact ih (by omega)

/-- Bytes that fill the buffer are compressed with the bytes before them. -/
theorem absorbAll_of_full {e : Engine} {bs : List Byte} (h : e.bufcnt.toNat + bs.length = 64) :
    (absorbAll e bs).h = blockStep e.h (writeBytes e.buf e.bufcnt.toNat bs) := by
  induction bs generalizing e with
  | nil => exact absurd h e.bufcnt.isLt.ne
  | cons b bs ih =>
    rw [List.length_cons] at h
    rw [absorbAll_cons, writeBytes_cons _ e.bufcnt.isLt]
    by_cases hf : e.bufcnt.toNat < 63
    · obtain ⟨hcnt, hh, hbuf⟩ := absorb_of_lt b hf
      rw [← hcnt, ← hbuf, ← hh]
      exact ih (by omega)
    · obtain rfl := List.eq_nil_of_length_eq_zero (l := bs) (by omega)
      rw [absorbAll_nil, writeBytes_nil]
      exact absorb_h_of_full b (by omega)

end Sys2Proof.Machine

namespace Sys2Proof

open Machine

/-- Settles O20: H by the rounds' invariant, the rest as Compress writes it. -/
theorem compressIsTheBlockFunction : Obligations.CompressIsTheBlockFunction := fun e => by
  rw [← compress_h e]
  rfl

/-- Settles O21: the window's invariant. -/
theorem windowHoldsTheUnrolledSchedule : Obligations.WindowHoldsTheUnrolledSchedule :=
  fun h buf x _ ht => windowSlot_rounds h buf x ht

/-- Settles O22: the lanes of a word put together big-endian. -/
theorem blockWordsAreBigEndian : Obligations.BlockWordsAreBigEndian := by
  intro h buf x i
  have hw : (loadWorking h buf x).w[i] = blockWord buf i := Vector.getElem_ofFn i.isLt
  simp only [hw]
  exact ⟨byteLane_be32_zero .., byteLane_be32_one .., byteLane_be32_two .., byteLane_be32_three ..⟩

/-- Settles O19: the two cases of Absorb. -/
theorem absorbAppendsOneByte : Obligations.AbsorbAppendsOneByte := by
  intro e b
  refine ⟨fun hroom => ?_, fun hfull => ?_⟩
  · have hne : e.bufcnt ≠ 63 := fun h => by simp [h] at hroom
    obtain ⟨hcnt, -, -⟩ := absorb_of_lt b hroom
    exact ⟨_, absorb_of_room b hne, hcnt, getElem_set_byte e.buf e.bufcnt.isLt b⟩
  · have h63 : e.bufcnt = 63 := BitVec.eq_of_toNat_eq hfull
    exact ⟨{ e with buf := e.buf.set 63 b }, rfl, getElem_set_byte e.buf (by decide) b, absorb_of_full b h63⟩

/-- Settles O23: the bytes stand in the buffer, or in the block, from BUFCNT on. -/
theorem alignedUpdateWordIsAScheduleWord : Obligations.AlignedUpdateWordIsAScheduleWord := by
  refine ⟨fun v n => dataBytes_eq_map v, fun e v i hi => ?_, fun e v h60 => ?_⟩
  · obtain ⟨-, hbuf⟩ := absorbAll_of_room (e := e) (bs := dataBytes v 4)
      (by rw [dataBytes_length v (Nat.le_refl 4)]; omega)
    rw [hbuf, hi]
    exact blockWord_writeBytes e.buf v i.castSucc
  · refine ⟨_, absorbAll_of_full (by rw [dataBytes_length v (Nat.le_refl 4), h60]), ?_, fun i => ?_⟩
    · rw [h60]
      exact blockWord_writeBytes e.buf v 15
    · rw [writeBytes_getElem, if_pos (by omega)]

end Sys2Proof
end

section
/-! SUPPORT. How a message is cut into UPDATEs (spec/40_hash_engine.md R136), and FINAL's padding (R150 to R155): where
its loop ends, the block boundary it ends on, and the digest of the message it completes. -/

namespace Sys2Proof.Machine

open Host (Outcome)
open Sha1

/-! ### Feeding bytes -/

/-- An accepted UPDATE absorbs its bytes, none for a count of 0 (R134). -/
theorem exec_update_absorbs {s : State} {n : Nat} (hi : s.initd = true) (hn : n ≤ 4) :
    ∃ t, exec (.update n) s = .next t ∧ t.initd = true ∧ t.eng = absorbAll s.eng (dataBytes s.data n) := by
  by_cases h0 : n = 0
  · subst h0
    exact ⟨s, exec_update_zero hi, hi, rfl⟩
  · exact ⟨_, exec_update_accepted hi h0 hn, hi, rfl⟩

/-- Chunks absorb the bytes they deliver, however they are cut (R136). -/
theorem feed_absorbs {s : State} {us : List (Word × Nat)} (hi : s.initd = true) (hus : ∀ u ∈ us, u.2 ≤ 4) :
    ∃ t, feed us s = .next t ∧ t.eng = absorbAll s.eng (fedBytes us) := by
  induction us generalizing s with
  | nil => exact ⟨s, rfl, rfl⟩
  | cons u us ih =>
    obtain ⟨hu, hus⟩ := List.forall_mem_cons.mp hus
    obtain ⟨a, ha, hai, haeng⟩ := exec_update_absorbs (s := { s with data := u.1 }) hi hu
    obtain ⟨t, ht, hteng⟩ := ih hai hus
    refine ⟨t, by rw [feed, ha]; exact ht, ?_⟩
    rw [hteng, haeng, ← absorbAll_append]
    rfl

/-! ### The padding -/

theorem paddingBytes_length (r : Nat) (l : BitVec 64) : (paddingBytes r l).length = (119 - r) % 64 + 9 := by
  simp [paddingBytes, lengthBytes]

/-- The loop ends after the zero bytes that bring BITCNT to 448 modulo 512 (R150). -/
theorem padZero_eq_some {fuel z : Nat} {e : Engine} (hz : z < 64) (hfuel : z ≤ fuel)
    (hend : (e.bitcnt.toNat + 8 * z) % 512 = 448) : padZero fuel e = some (absorbAll e (List.replicate z 0x00)) := by
  induction z generalizing fuel e with
  | zero => cases fuel <;> exact if_pos hend
  | succ z ih =>
    obtain ⟨fuel, rfl⟩ := Nat.exists_eq_add_of_le' (Nat.lt_of_lt_of_le z.succ_pos hfuel)
    have hcnt : (absorb e 0x00).bitcnt.toNat = (e.bitcnt.toNat + 8) % 2 ^ 64 := by simp
    rw [padZero, if_neg (by omega), ih (by omega) (by omega) (by omega)]
    rfl

/-- A READY engine's padding ends, and its bytes are those of the padding law (R151). -/
theorem EngineReady.padMessage_eq {e : Engine} (h : EngineReady e) :
    padMessage e = some (Machine.absorbAll e (paddingBytes e.bufcnt.toNat e.bitcnt)) := by
  obtain ⟨hbytes, hcount, -⟩ := h
  have hcnt : (Machine.absorb e 0x80).bitcnt.toNat = (e.bitcnt.toNat + 8) % 2 ^ 64 := by simp
  have hloop : padZero padFuel (Machine.absorb e 0x80) = some (Machine.absorbAll (Machine.absorb e 0x80)
      (List.replicate ((119 - e.bufcnt.toNat) % 64) 0x00)) :=
    padZero_eq_some (by omega) (by rw [padFuel]; omega) (by omega)
  rw [padMessage, hloop, paddingBytes, List.cons_append, absorbAll_cons, absorbAll_append]
  rfl

/-- The padding ends on a block boundary (R151). -/
theorem EngineReady.padded_counts {e : Engine} (h : EngineReady e) :
    (Machine.absorbAll e (paddingBytes e.bufcnt.toNat e.bitcnt)).bufcnt = 0 ∧
      (Machine.absorbAll e (paddingBytes e.bufcnt.toNat e.bitcnt)).bitcnt.toNat % 512 = 0 := by
  obtain ⟨hbytes, hcount, -⟩ := h
  rw [absorbAll_bufcnt, absorbAll_bitcnt, paddingBytes_length]
  constructor
  · apply BitVec.eq_of_toNat_eq
    simp only [BitVec.toNat_add, BitVec.toNat_ofNat, BitVec.ofNat_eq_ofNat]
    omega
  · simp only [BitVec.toNat_add, BitVec.toNat_ofNat]
    omega

/-- FINAL on a READY engine completes (R150). -/
theorem exec_final_ready {s : State} (hi : s.initd = true) (h : EngineReady s.eng) :
    exec .final s = .next
      { s with
        eng := reinit (absorbAll s.eng (paddingBytes s.eng.bufcnt.toNat s.eng.bitcnt))
        digest := (absorbAll s.eng (paddingBytes s.eng.bufcnt.toNat s.eng.bitcnt)).h
        dv := true } := by
  simp [exec, execFinal, hi, h.padMessage_eq]

/-! ### The padded message -/

/-- An engine that holds a message is READY (R51). -/
theorem Represents.ready {e : Engine} {m : List Byte} (h : Represents e m) : EngineReady e := by
  have hbit : e.bitcnt.toNat = 8 * m.length % 2 ^ 64 := by rw [h.bitcnt_eq, BitVec.toNat_ofNat]
  refine ⟨by omega, by rw [h.bufcnt_toNat]; omega, fun i hi => ?_⟩
  rw [h.bufcnt_toNat] at hi
  rw [h.buf_eq, Fin.getElem_fin, blockAt_getElem, List.getD_eq_default _ _ (by omega)]

/-- The padding completes the padded message, whose last chaining value is the digest (R153). -/
theorem Represents.padded_h {e : Engine} {m : List Byte} (h : Represents e m) :
    (Machine.absorbAll e (paddingBytes e.bufcnt.toNat e.bitcnt)).h = digest m := by
  have hpad : m ++ paddingBytes e.bufcnt.toNat e.bitcnt = padded m := by rw [h.bufcnt_toNat, h.bitcnt_eq, padded]
  rw [(h.absorbAll _).h_eq, hpad, digest]

/-- FINAL stores the digest of the message the engine holds and starts the empty message. -/
theorem exec_final_digest {s : State} {m : List Byte} (hi : s.initd = true) (h : Represents s.eng m) :
    ∃ p, exec .final s = .next { s with eng := reinit p, digest := digest m, dv := true } :=
  ⟨_, by rw [exec_final_ready hi h.ready, h.padded_h]⟩

/-- INIT and UPDATE 3 of the example of R134 and R150, from reset. -/
theorem represents_abc {t u : State} (ht : exec .init State.reset = .next t)
    (hu : exec (.update 3) { t with data := 0x61626300 } = .next u) : Represents u.eng [0x61, 0x62, 0x63] := by
  obtain rfl := Outcome.next.inj ht
  obtain rfl := Outcome.next.inj hu
  exact (exec_init_represents ht).absorbAll [0x61, 0x62, 0x63]

end Sys2Proof.Machine

namespace Sys2Proof

open Machine
open Host (Outcome)

/-- Settles O24: each cutting absorbs the bytes it delivers. -/
theorem streamingEquivalence : Obligations.StreamingEquivalence := by
  intro s us vs hi hus hvs hbytes
  obtain ⟨t, ht, hteng⟩ := feed_absorbs hi hus
  obtain ⟨t', ht', hteng'⟩ := feed_absorbs hi hvs
  have heng : t.eng = t'.eng := by rw [hteng, hteng', hbytes]
  exact ⟨t, t', ht, ht', by rw [heng], by rw [heng], by rw [heng], by rw [heng]⟩

/-- Settles O25: the loop's end, the counters of the padding's bytes and the blocks they complete. -/
theorem paddingEndsOnABlockBoundary : Obligations.PaddingEndsOnABlockBoundary := by
  intro e h
  obtain ⟨hbuf, hbit⟩ := h.padded_counts
  refine ⟨_, h.padMessage_eq, rfl, hbuf, hbit, ?_⟩
  have hr := e.bufcnt.isLt
  rw [compressionsOf_eq, paddingBytes_length]
  split <;> omega

/-- Settles O28: the engine absorbs the padded message. -/
theorem finalStoresTheDigestOfTheMessage : Obligations.FinalStoresTheDigestOfTheMessage := by
  intro s m hi h
  obtain ⟨p, hp⟩ := exec_final_digest hi h
  exact ⟨_, hp, rfl, rfl, represents_reinit p⟩

/-- Settles O15: FINAL on a READY engine, and the digest of "abc" for the example. -/
theorem finalPadsAndStoresTheDigest : Obligations.FinalPadsAndStoresTheDigest := by
  refine ⟨rfl, fun w s hopc hw => ?_, fun t u v ht hu hv => ?_, fun s => ⟨exec_final_noinit, fun hi h => ?_⟩⟩
  · exact executeWord_illegal_of_opcode (j := .final) s rfl hopc hw
  · have hm := represents_abc ht hu
    obtain rfl := Outcome.next.inj ht
    obtain rfl := Outcome.next.inj hu
    obtain ⟨p, hp⟩ := exec_final_digest rfl hm
    obtain rfl := Outcome.next.inj (hp.symm.trans hv)
    refine ⟨Sha1.digest_abc, ?_⟩
    simp only [statusWord, reinit_bufcnt, State.reset]
    rfl
  · exact ⟨_, rfl, exec_final_ready hi h⟩

end Sys2Proof
end

section
/-! SUPPORT. What SEED and SALT_GEN answer (spec/41_salt_generator.md R181 to R187): the generator's sequence as salt
bytes, and what of it other commands leave. -/

namespace Sys2Proof.Machine

open Host (Outcome)

/-! ### SALT_GEN -/

theorem exec_saltGen_noseed {s : State} {n : Nat} (hn : n ≤ 16) (hs : s.seeded = false) :
    exec (.saltGen n) s = .next (raiseError .noseed s) := by
  rw [exec, execSaltGen, if_neg (Nat.not_lt.mpr hn), if_pos hs]

/-- An accepted SALT_GEN n leaves PRNG n steps on and the bytes the loop wrote to a zeroized buffer (R183). -/
theorem exec_saltGen_accepted {s : State} {n : Nat} (hn : n ≤ 16) (hs : s.seeded = true) :
    exec (.saltGen n) s = .next
      { s with
        prng := (nextPrng s.cfg)^[n] s.prng
        salt := (fillSalt s.cfg n (s.prng, Vector.replicate 16 0)).2
        saltlen := BitVec.ofNat 5 n } := by
  rw [exec, execSaltGen, if_neg (Nat.not_lt.mpr hn), if_neg (by simp [hs])]
  simp only [fillSalt_prng]

/-- Salt byte j comes from the generator's state j + 1, and from n on the buffer is zero (R183). -/
theorem fillSalt_getElem (p : Params) (n : Nat) (x : Word) (j : Fin 16) :
    (fillSalt p n (x, Vector.replicate 16 0)).2[j] =
      if j.val < n then saltByte ((nextPrng p)^[j.val + 1] x) else 0 := by
  split
  · next hj => exact fillSalt_byte p n _ j hj
  · next hj =>
    rw [fillSalt_rest p n _ j (Nat.le_of_not_lt hj)]
    exact Vector.getElem_replicate j.isLt

/-- A byte SALT_GEN writes, the buffer read at a natural number. -/
theorem fillSalt_getElem? (p : Params) {n j : Nat} (g : Word × Vector Byte 16) (hn : n ≤ 16) (hj : j < n) :
    (fillSalt p n g).2[j]? = some (saltByte ((nextPrng p)^[j + 1] g.1)) := by
  rw [Vector.getElem?_eq_getElem (hj.trans_le hn)]
  exact congrArg some (fillSalt_byte p n g ⟨j, hj.trans_le hn⟩ hj)

/-! ### The salt byte's distribution (R186) -/

/-- The generator states whose bits 30:16 are r, bit 31 and the low half 0, give the byte 0x20 + r mod 96 (R184). -/
theorem saltByte_toNat_of_high {r : Nat} (hr : r < 2 ^ 15) :
    (saltByte (BitVec.ofNat 32 (r * 65536))).toNat = 0x20 + r % 96 := by
  simp only [saltByte, BitVec.extractLsb'_toNat, BitVec.toNat_ofNat, Nat.shiftRight_eq_div_pow]
  omega

/-- Such a state gives the byte v + 0x20 exactly when r is v modulo 96. -/
theorem saltByte_of_high_eq_iff {r v : Nat} (hr : r < 2 ^ 15) (hv : v < 96) :
    saltByte (BitVec.ofNat 32 (r * 65536)) = BitVec.ofNat 8 (v + 0x20) ↔ r ≡ v [MOD 96] := by
  rw [← BitVec.toNat_inj, saltByte_toNat_of_high hr, BitVec.toNat_ofNat, Nat.ModEq]
  omega

/-- 32768 is 341 times 96 and 32 more, so the first 32 bytes of the band come up once more than the others. -/
theorem saltByte_frequency {v : Nat} (hv : v < 96) :
    ((List.range 32768).filter fun r => saltByte (BitVec.ofNat 32 (r * 65536)) = BitVec.ofNat 8 (v + 0x20)).length =
      if v < 0x20 then 342 else 341 := by
  have hmod : ((List.range 32768).filter fun r =>
      saltByte (BitVec.ofNat 32 (r * 65536)) = BitVec.ofNat 8 (v + 0x20)) =
        (List.range 32768).filter fun r => r ≡ v [MOD 96] :=
    List.filter_congr fun r hr => decide_eq_decide.mpr (saltByte_of_high_eq_iff (List.mem_range.mp hr) hv)
  have hcount := Nat.count_modEq_card 32768 (r := 96) (by decide) v
  rw [Nat.count, List.countP_eq_length_filter, Nat.mod_eq_of_lt hv] at hcount
  rw [hmod, hcount]
  split <;> rfl

/-! ### Commands between SEED and SALT_GEN -/

theorem runCommands_cons_next {i : Instr} {is : List Instr} {s t : State}
    (h : runCommands (i :: is) s = .next t) : ∃ u, exec i s = .next u ∧ runCommands is u = .next t := by
  unfold runCommands at h
  split at h
  · next u hu => exact ⟨u, hu, h⟩
  · cases h
  · cases h

/-- Commands other than SEED and SALT_GEN leave the generator and its parameters (R30, R187). -/
theorem runCommands_keeps_generator {is : List Instr} {s t : State}
    (his : ∀ i ∈ is, i ≠ .seed ∧ ∀ k, i ≠ .saltGen k) (h : runCommands is s = .next t) :
    t.prng = s.prng ∧ t.seeded = s.seeded ∧ t.cfg = s.cfg := by
  induction is generalizing s with
  | nil =>
    obtain rfl := Outcome.next.inj h
    exact ⟨rfl, rfl, rfl⟩
  | cons i is ih =>
    obtain ⟨⟨hseed, hgen⟩, his⟩ := List.forall_mem_cons.mp his
    obtain ⟨u, hu, hrest⟩ := runCommands_cons_next h
    obtain ⟨hprng, hseeded, hcfg⟩ := ih his hrest
    have hframe := exec_frame hu
    obtain ⟨-, hcfg', -⟩ := hframe.outside
    exact ⟨hprng.trans (hframe.prng hseed hgen), hseeded.trans (hframe.seeded hseed), hcfg.trans hcfg'⟩

/-- What a SALT_GEN leaves after a SEED and such commands: the seed's sequence, with nothing else of the state. -/
theorem salt_after_seed {s a b u : State} {is : List Instr} {n : Nat} (hn : n ≤ 16)
    (his : ∀ i ∈ is, i ≠ .seed ∧ ∀ k, i ≠ .saltGen k) (ha : exec .seed s = .next a)
    (hb : runCommands is a = .next b) (hu : exec (.saltGen n) b = .next u) :
    u.salt = (fillSalt s.cfg n (s.data, Vector.replicate 16 0)).2 ∧ u.saltlen = BitVec.ofNat 5 n ∧
      u.prng = (nextPrng s.cfg)^[n] s.data := by
  obtain rfl := Outcome.next.inj ha
  obtain ⟨hprng, hseeded, hcfg⟩ := runCommands_keeps_generator his hb
  obtain rfl := Outcome.next.inj ((exec_saltGen_accepted hn hseeded).symm.trans hu)
  simp only [hprng, hcfg, and_self]

end Sys2Proof.Machine

namespace Sys2Proof

open Machine
open Host (Outcome)

/-- Settles O16: SEED's one record update, and the words of its opcode. -/
theorem seedLoadsTheGenerator : Obligations.SeedLoadsTheGenerator := by
  refine ⟨rfl, fun s => rfl, fun w s hopc hw => ?_, fun t ht => ?_⟩
  · exact executeWord_illegal_of_opcode (j := .seed) s rfl hopc hw
  · obtain rfl := Outcome.next.inj ht
    exact ⟨rfl, rfl⟩

/-- Settles O17: one lemma per branch of SALT_GEN, and the salt loop byte by byte. -/
theorem saltGenFillsTheBuffer : Obligations.SaltGenFillsTheBuffer := by
  intro s n
  refine ⟨fun _ => rfl, execSaltGen_saltlen s, exec_saltGen_noseed, fun hn hs => ?_,
    fun w _ hrsv => executeWord_illegal_of_rsv s hrsv, fun t u ht hu => ?_⟩
  · exact ⟨_, exec_saltGen_accepted hn hs, fillSalt_getElem s.cfg n s.prng⟩
  · obtain rfl := Outcome.next.inj ht
    obtain rfl := Outcome.next.inj hu
    decide +kernel

/-- Settles O30: the band of the byte, and the classes of r modulo 96. -/
theorem saltByteBandAndDistribution : Obligations.SaltByteBandAndDistribution := by
  refine ⟨saltByte_band, fun b hlow hhigh => ?_⟩
  obtain ⟨v, rfl⟩ := Nat.exists_eq_add_of_le' hlow
  rw [saltByte_frequency (by omega)]
  exact if_congr (Nat.add_lt_add_iff_right (k := 0x20)).symm rfl rfl

/-- Settles O31: n + m steps of the generator are n and then m. -/
theorem saltGenContinuesOneSequence : Obligations.SaltGenContinuesOneSequence := by
  intro s n m hs hnm
  have hn : n ≤ 16 := by omega
  have hm : m ≤ 16 := by omega
  refine ⟨_, _, _, exec_saltGen_accepted hn hs, exec_saltGen_accepted hm hs, exec_saltGen_accepted hnm hs, ?_,
    fun j hj => ?_, fun j hj => ?_⟩
  · simp only [← Function.iterate_add_apply, Nat.add_comm m n]
  · simp only [fillSalt_getElem? _ _ hn hj, fillSalt_getElem? _ _ hnm (Nat.lt_add_right m hj)]
  · simp only [fillSalt_getElem? _ _ hm hj, fillSalt_getElem? _ _ hnm (Nat.add_lt_add_left hj n),
      ← Function.iterate_add_apply, show j + 1 + n = n + j + 1 by omega]

/-- Settles O32: both runs leave what the seed's sequence gives. -/
theorem saltDependsOnTheSeedAlone : Obligations.SaltDependsOnTheSeedAlone := by
  intro s s' is is' n a b a' b' u u' hdata hcfg hn his his' ha hb hu ha' hb' hu'
  obtain ⟨hsalt, hlen, hprng⟩ := salt_after_seed hn his ha hb hu
  obtain ⟨hsalt', hlen', hprng'⟩ := salt_after_seed hn his' ha' hb' hu'
  rw [hsalt, hlen, hprng, hsalt', hlen', hprng', hdata, hcfg]
  exact ⟨rfl, rfl, rfl⟩

end Sys2Proof
end

section
/-! SUPPORT. NOP and CLR_ERR (spec/42_control.md R200, R202): what the Core step of each answers. -/

namespace Sys2Proof

open Machine
open Host (Outcome)

theorem coreStep_nop {s : State} (hp : s.pend = some 0x00000000) : coreStep s = .next { s with pend := none } := by
  obtain ⟨hrun, -⟩ := stepRunsTheDecodedCommand s _ [] hp
  exact (hrun .nop rfl).1 s rfl

theorem coreStep_clrErr {s : State} (hp : s.pend = some 0x00000020) :
    coreStep s = .next { s with pend := none, err := false, errcode := 0 } := by
  obtain ⟨hrun, -⟩ := stepRunsTheDecodedCommand s _ [] hp
  exact (hrun .clrErr rfl).1 (clearError s) rfl

/-- Settles O12: the words of NOP's opcode, and a CMD write of NOP's word, idle and busy. -/
theorem nopDoesNothing : Obligations.NopDoesNothing := by
  refine ⟨rfl, fun s => rfl, fun w s hopc hw => ?_, fun s hp => ?_, fun s v hp => ?_⟩
  · exact executeWord_illegal_of_opcode (j := .nop) s rfl hopc hw
  · refine ⟨_, (cmdWriteSubmitsOrOverruns s 0).1 hp, rfl, ?_⟩
    rw [coreStep_nop rfl, ← hp]
  · exact (cmdWriteSubmitsOrOverruns s 0).2 v hp

/-- Settles O18: CLR_ERR's one record update, the words of its opcode, and the OVERRUN that a pending CLR_ERR clears. -/
theorem clrErrClearsTheError : Obligations.ClrErrClearsTheError := by
  refine ⟨rfl, fun s => rfl, fun w s hopc hw => ?_, fun s v hp => ?_, fun t u ht hu => ?_⟩
  · exact executeWord_illegal_of_opcode (j := .clrErr) s rfl hopc hw
  · exact ⟨_, (cmdWriteSubmitsOrOverruns s v).2 _ hp, rfl, hp, coreStep_clrErr hp⟩
  · obtain rfl := Outcome.next.inj ((exec_update_noinit (by decide) rfl).symm.trans ht)
    obtain rfl := Outcome.next.inj hu
    decide

end Sys2Proof
end

section
/-! SUPPORT. The error record (spec/60_exceptions.md): a command runs the same whatever ERR and ERRCODE hold (R214), and
which commands leave them (R215). -/

namespace Sys2Proof.Machine

open Host (Outcome)

/-! ### What a command answers but for ERR and ERRCODE (R214) -/

/-- An outcome without the error record of its next state. -/
def forgetError : Outcome State Fault Refusal → Outcome State Fault Refusal
  | .next s => .next s.withoutError
  | .fault f => .fault f
  | .refused r => .refused r

theorem forgetError_eq_next {o : Outcome State Fault Refusal} {t : State} :
    forgetError o = .next t ↔ ∃ s, o = .next s ∧ t = s.withoutError := by
  cases o <;> simp [forgetError, eq_comm]

theorem forgetError_eq_fault {o : Outcome State Fault Refusal} {f : Fault} :
    forgetError o = .fault f ↔ o = .fault f := by
  cases o <;> simp [forgetError]

theorem forgetError_eq_refused {o : Outcome State Fault Refusal} {r : Refusal} :
    forgetError o = .refused r ↔ o = .refused r := by
  cases o <;> simp [forgetError]

/-- No command reads the error record: clearing it first changes nothing else of what the command answers. The tests of
UPDATE, FINAL and SALT_GEN read the count, INITD, SEEDED and the engine, and branch by branch the answers agree. -/
theorem forgetError_exec_withoutError (i : Instr) (s : State) :
    forgetError (exec i s.withoutError) = forgetError (exec i s) := by
  cases i with
  | nop | init | seed | clrErr => rfl
  | update n =>
    simp only [exec, execUpdate, apply_ite forgetError]
    rfl
  | final =>
    simp only [exec, execFinal, apply_ite forgetError, withoutError_eng]
    cases padMessage s.eng <;> rfl
  | saltGen n =>
    simp only [exec, execSaltGen, apply_ite forgetError]
    rfl

/-! ### Which commands leave the error record (R215) -/

theorem opcode_eq_update_iff {i : Instr} : i.opcode = 0x02 ↔ ∃ n, i = .update n := by
  cases i <;> simp [Instr.opcode]

theorem opcode_eq_saltGen_iff {i : Instr} : i.opcode = 0x11 ↔ ∃ n, i = .saltGen n := by
  cases i <;> simp [Instr.opcode]

/-- A command to which none of the errors applies leaves ERR and ERRCODE, but for CLR_ERR. -/
theorem exec_keeps_error {i : Instr} {s t : State} (h : exec i s = .next t) (hclr : i ≠ .clrErr)
    (hbadlen : ¬(i.opcode = 0x02 ∧ 5 ≤ i.count)) (hsaltlen : ¬(i.opcode = 0x11 ∧ 17 ≤ i.count))
    (hnoinit : ¬((i.opcode = 0x02 ∨ i.opcode = 0x03) ∧ s.initd = false))
    (hnoseed : ¬(i.opcode = 0x11 ∧ s.seeded = false)) : t.err = s.err ∧ t.errcode = s.errcode := by
  cases i with
  | clrErr => exact absurd rfl hclr
  | nop | init | seed =>
    obtain rfl := Outcome.next.inj h
    exact ⟨rfl, rfl⟩
  | update n =>
    obtain ⟨hn, -⟩ | ⟨-, hi, -⟩ | ⟨-, -, rfl⟩ | ⟨-, -, -, rfl⟩ := execUpdate_next h
    · exact absurd ⟨rfl, hn⟩ hbadlen
    · exact absurd ⟨.inl rfl, hi⟩ hnoinit
    · exact ⟨rfl, rfl⟩
    · exact ⟨rfl, rfl⟩
  | final =>
    obtain ⟨hi, -⟩ | ⟨-, e, -, rfl⟩ := execFinal_next h
    · exact absurd ⟨.inr rfl, hi⟩ hnoinit
    · exact ⟨rfl, rfl⟩
  | saltGen n =>
    obtain ⟨hn, -⟩ | ⟨-, hs, -⟩ | ⟨-, -, rfl⟩ := execSaltGen_next h
    · exact absurd ⟨rfl, hn⟩ hsaltlen
    · exact absurd ⟨rfl, hs⟩ hnoseed
    · exact ⟨rfl, rfl⟩

end Sys2Proof.Machine

namespace Sys2Proof

open Machine
open Host (Outcome)

/-- Settles O9: a rejected word is illegal; of an accepted one the fields are the command's, and each error is one
branch of its meaning. -/
theorem commandErrorsFollowThePriorityOrder : Obligations.CommandErrorsFollowThePriorityOrder := by
  intro w s
  have hillegal := decode_error_iff_classes w
  cases hd : decode w with
  | error r =>
    have h := hillegal.mp ⟨r, hd⟩
    exact ⟨fun _ => executeWord_error s hd, absurd h, absurd h, absurd h, absurd h, absurd h⟩
  | ok i =>
    obtain ⟨-, hopc, hcount⟩ := decode_eq_ok_iff.mp hd
    have hlegal := hillegal.not.mp (by simp [hd])
    rw [opcField] at hopc hlegal
    rw [countField] at hcount hlegal
    simp only [executeWord_ok s hd, hopc, hcount] at hlegal ⊢
    refine ⟨fun h => absurd h hlegal, fun _ => ?_, fun _ => ?_, fun _ => ?_, fun _ => ?_, fun _ => ?_⟩
    · rintro ⟨hu, hn⟩
      obtain ⟨n, rfl⟩ := opcode_eq_update_iff.mp hu
      exact execUpdate_badlen s hn
    · rintro ⟨hg, hn⟩
      obtain ⟨n, rfl⟩ := opcode_eq_saltGen_iff.mp hg
      exact execSaltGen_saltlen s hn
    · rintro hlen ⟨hu | hf, hi⟩
      · obtain ⟨n, rfl⟩ := opcode_eq_update_iff.mp hu
        exact exec_update_noinit (Nat.le_of_not_lt fun hn => hlen ⟨hu, hn⟩) hi
      · obtain rfl := instr_eq_of_opcode (j := .final) rfl hf
        exact exec_final_noinit hi
    · rintro hlen ⟨hg, hs⟩
      obtain ⟨n, rfl⟩ := opcode_eq_saltGen_iff.mp hg
      exact exec_saltGen_noseed (Nat.le_of_not_lt fun hn => hlen ⟨hg, hn⟩) hs
    · intro hbadlen hsaltlen hnoinit hnoseed t ht
      split
      · next hc =>
        obtain rfl := instr_eq_of_opcode (j := .clrErr) rfl hc
        obtain rfl := Outcome.next.inj ht
        exact ⟨rfl, rfl⟩
      · next hc => exact exec_keeps_error ht (fun h => hc (h ▸ rfl)) hbadlen hsaltlen hnoinit hnoseed

/-- Settles O10: both states answer what the state without an error record answers. -/
theorem errorsDoNotBlockCommands : Obligations.ErrorsDoNotBlockCommands := by
  intro i s s' hs
  have hsame : forgetError (exec i s) = forgetError (exec i s') := by
    rw [← forgetError_exec_withoutError i s, hs, forgetError_exec_withoutError]
  refine ⟨fun t ht => ?_, fun f hf => ?_, fun r hr => ?_⟩
  · exact forgetError_eq_next.mp (hsame.symm.trans (forgetError_eq_next.mpr ⟨t, ht, rfl⟩))
  · exact forgetError_eq_fault.mp (hsame.symm.trans (forgetError_eq_fault.mpr hf))
  · exact forgetError_eq_refused.mp (hsame.symm.trans (forgetError_eq_refused.mpr hr))

end Sys2Proof
end

section
/-! SUPPORT. The Host's accesses while a command is pending (spec/70_reset_and_hazards.md R250, R251). -/

namespace Sys2Proof.Machine

/-- While a command is pending a read returns what the register makes of one fresh draw (R251). -/
theorem hostReadReg_pending {s : State} {w : Word} (r : Reg) (h : s.pend = some w) :
    hostReadReg r s =
      { s with lastRead := some (readRegBusy r (Config.busyRead s.freeCount)), freeCount := s.freeCount + 1 } := by
  simp [hostReadReg, State.busy, h]

/-- While a command is pending a write to CMD or DATA records OVERRUN and nothing else (R250). -/
theorem hostWriteReg_overrun {r : Reg} {s : State} (v : Word) (hr : r = .cmd ∨ r = .data) (h : s.pend ≠ none) :
    hostWriteReg r v s = raiseError .overrun s := by
  obtain ⟨w, hw⟩ := Option.ne_none_iff_exists'.mp h
  exact hostWriteReg_busy v hr hw

end Sys2Proof.Machine
end

section
/-! SUPPORT. What is unspecified after reset is never observed (spec/70_reset_and_hazards.md R241): before INIT every
command that reads H or buf is rejected, before SEED every command that reads PRNG, and no register shows them. -/

namespace Sys2Proof.Machine

open Host (Outcome)

/-! ### States that differ only in what is unspecified -/

section

variable {s s' : State} (h : SameObservable s s')

include h

theorem SameObservable.initd_eq : s'.initd = s.initd := by rw [h.rest_eq]

theorem SameObservable.seeded_eq : s'.seeded = s.seeded := by rw [h.rest_eq]

theorem SameObservable.pend_eq : s'.pend = s.pend := by rw [h.rest_eq]

theorem SameObservable.cfg_eq : s'.cfg = s.cfg := by rw [h.rest_eq]

theorem SameObservable.env_eq : s'.env = s.env := by rw [h.rest_eq]

theorem SameObservable.data_eq : s'.data = s.data := by rw [h.rest_eq]

theorem SameObservable.freeCount_eq : s'.freeCount = s.freeCount := by rw [h.rest_eq]

theorem SameObservable.with_env (env : List Event) : SameObservable { s with env := env } { s' with env := env } where
  rest_eq := by rw [h.rest_eq]
  engine_eq := h.engine_eq
  prng_eq := h.prng_eq

theorem SameObservable.with_pend (p : Option Word) : SameObservable { s with pend := p } { s' with pend := p } where
  rest_eq := by rw [h.rest_eq]
  engine_eq := h.engine_eq
  prng_eq := h.prng_eq

theorem SameObservable.with_data (v : Word) : SameObservable { s with data := v } { s' with data := v } where
  rest_eq := by rw [h.rest_eq]
  engine_eq := h.engine_eq
  prng_eq := h.prng_eq

theorem SameObservable.with_read (v : Option Word) (n : Nat) :
    SameObservable { s with lastRead := v, freeCount := n } { s' with lastRead := v, freeCount := n } where
  rest_eq := by rw [h.rest_eq]
  engine_eq := h.engine_eq
  prng_eq := h.prng_eq

theorem SameObservable.raiseError (c : CmdError) : SameObservable (raiseError c s) (raiseError c s') where
  rest_eq := by rw [h.rest_eq]; rfl
  engine_eq := h.engine_eq
  prng_eq := h.prng_eq

theorem SameObservable.clearError : SameObservable (clearError s) (clearError s') where
  rest_eq := by rw [h.rest_eq]; rfl
  engine_eq := h.engine_eq
  prng_eq := h.prng_eq

/-- Reset draws H, buf and PRNG anew, the same for both (R240). -/
theorem SameObservable.applyReset : SameObservable (applyReset s) (applyReset s') where
  rest_eq := by rw [h.rest_eq]; rfl
  engine_eq _ := by rw [applyReset_eng, applyReset_eng, h.freeCount_eq]
  prng_eq _ := by rw [applyReset_prng, applyReset_prng, h.freeCount_eq]

end

/-! ### Outcomes that differ only in what is unspecified -/

/-- Next states that differ only so, or the same stop. -/
inductive SameOutcome : Outcome State Fault Refusal → Outcome State Fault Refusal → Prop
  | next {t t' : State} (h : SameObservable t t') : SameOutcome (.next t) (.next t')
  | fault (f : Fault) : SameOutcome (.fault f) (.fault f)
  | refused (r : Refusal) : SameOutcome (.refused r) (.refused r)

theorem SameOutcome.retire {o o' : Outcome State Fault Refusal} (h : SameOutcome o o') :
    SameOutcome (retire o) (retire o') := by
  cases h with
  | next h => exact .next (h.with_pend none)
  | fault f => exact .fault f
  | refused r => exact .refused r

/-! ### The commands -/

/-- INIT writes H and buf before anything reads them (R131). -/
theorem SameObservable.exec_init {s s' : State} (h : SameObservable s s') :
    SameOutcome (exec .init s) (exec .init s') :=
  .next
    { rest_eq := by rw [h.rest_eq]; rfl
      engine_eq := fun _ => by rw [h.rest_eq]; rfl
      prng_eq := h.prng_eq }

/-- SEED writes PRNG before anything reads it (R181). -/
theorem SameObservable.exec_seed {s s' : State} (h : SameObservable s s') :
    SameOutcome (exec .seed s) (exec .seed s') :=
  .next
    { rest_eq := by rw [h.rest_eq]
      engine_eq := h.engine_eq
      prng_eq := fun _ => h.data_eq }

theorem SameObservable.exec_update {s s' : State} (h : SameObservable s s') (n : Nat) :
    SameOutcome (exec (.update n) s) (exec (.update n) s') := by
  by_cases hn : 4 < n
  · rw [exec, exec, execUpdate_badlen s hn, execUpdate_badlen s' hn]
    exact .next (h.raiseError .badlen)
  · have hn : n ≤ 4 := Nat.le_of_not_lt hn
    cases hi : s.initd with
    | false =>
      rw [exec_update_noinit hn hi, exec_update_noinit hn (h.initd_eq.trans hi)]
      exact .next (h.raiseError .noinit)
    | true =>
      have hi' : s'.initd = true := h.initd_eq.trans hi
      by_cases h0 : n = 0
      · subst h0
        rw [exec_update_zero hi, exec_update_zero hi']
        exact .next h
      · rw [exec_update_accepted hi h0 hn, exec_update_accepted hi' h0 hn, h.engine_eq hi, h.data_eq]
        exact .next
          { rest_eq := by rw [h.rest_eq]
            engine_eq := fun _ => rfl
            prng_eq := h.prng_eq }

theorem SameObservable.exec_final {s s' : State} (h : SameObservable s s') :
    SameOutcome (exec .final s) (exec .final s') := by
  cases hi : s.initd with
  | false =>
    rw [exec_final_noinit hi, exec_final_noinit (h.initd_eq.trans hi)]
    exact .next (h.raiseError .noinit)
  | true =>
    simp only [Machine.exec, execFinal, h.initd_eq, hi, h.engine_eq hi]
    cases padMessage s.eng with
    | none => exact .fault .paddingDiverges
    | some e =>
      exact .next
        { rest_eq := by rw [h.rest_eq]
          engine_eq := fun _ => rfl
          prng_eq := h.prng_eq }

theorem SameObservable.exec_saltGen {s s' : State} (h : SameObservable s s') (n : Nat) :
    SameOutcome (exec (.saltGen n) s) (exec (.saltGen n) s') := by
  by_cases hn : 16 < n
  · rw [exec, exec, execSaltGen_saltlen s hn, execSaltGen_saltlen s' hn]
    exact .next (h.raiseError .saltlen)
  · have hn : n ≤ 16 := Nat.le_of_not_lt hn
    cases hs : s.seeded with
    | false =>
      rw [exec_saltGen_noseed hn hs, exec_saltGen_noseed hn (h.seeded_eq.trans hs)]
      exact .next (h.raiseError .noseed)
    | true =>
      rw [exec_saltGen_accepted hn hs, exec_saltGen_accepted hn (h.seeded_eq.trans hs), h.prng_eq hs, h.cfg_eq]
      exact .next
        { rest_eq := by rw [h.rest_eq]
          engine_eq := h.engine_eq
          prng_eq := fun _ => rfl }

theorem SameObservable.exec {s s' : State} (h : SameObservable s s') (i : Instr) :
    SameOutcome (exec i s) (exec i s') := by
  cases i with
  | nop => exact .next h
  | init => exact h.exec_init
  | update n => exact h.exec_update n
  | final => exact h.exec_final
  | seed => exact h.exec_seed
  | saltGen n => exact h.exec_saltGen n
  | clrErr => exact .next h.clearError

/-! ### The agents -/

theorem SameObservable.coreStep {s s' : State} (h : SameObservable s s') : SameOutcome (coreStep s) (coreStep s') := by
  cases hp : s.pend with
  | none =>
    rw [coreStep_none hp, coreStep_none (h.pend_eq.trans hp)]
    exact .next h
  | some w =>
    rw [coreStep_some hp, coreStep_some (h.pend_eq.trans hp)]
    apply SameOutcome.retire
    cases hd : decode w with
    | error r =>
      rw [executeWord_error s hd, executeWord_error s' hd]
      exact .next (h.raiseError .illegal)
    | ok i =>
      rw [executeWord_ok s hd, executeWord_ok s' hd]
      exact h.exec i

/-- No register shows H, buf or PRNG (R71). -/
theorem SameObservable.readReg_eq {s s' : State} (h : SameObservable s s') (r : Reg) : readReg r s' = readReg r s := by
  rw [h.rest_eq]
  cases r <;> rfl

theorem SameObservable.hostReadReg {s s' : State} (h : SameObservable s s') (r : Reg) :
    SameObservable (hostReadReg r s) (hostReadReg r s') := by
  cases hp : s.pend with
  | none =>
    rw [hostReadReg_idle r hp, hostReadReg_idle r (h.pend_eq.trans hp), h.readReg_eq, ← h.freeCount_eq]
    exact h.with_read _ _
  | some w =>
    rw [hostReadReg_pending r hp, hostReadReg_pending r (h.pend_eq.trans hp), h.freeCount_eq]
    exact h.with_read _ _

theorem SameObservable.hostWriteReg {s s' : State} (h : SameObservable s s') (r : Reg) (v : Word) :
    SameObservable (hostWriteReg r v s) (hostWriteReg r v s') := by
  obtain ⟨rfl, hp, hw⟩ | ⟨rfl, hp, hw⟩ | ⟨hr, hp, hw⟩ | ⟨hc, hd, hw⟩ := hostWriteReg_cases r v s
  · rw [hw, hostWriteReg_cmd_idle v (h.pend_eq.trans hp)]
    exact h.with_pend (some v)
  · rw [hw, hostWriteReg_data_idle v (h.pend_eq.trans hp)]
    exact h.with_data v
  · rw [hw, hostWriteReg_overrun v hr (h.pend_eq.trans_ne hp)]
    exact h.raiseError .overrun
  · rw [hw, hostWriteReg_other v s' hc hd]
    exact h

/-- An access looks at BASE only, so both are performed or both stop alike. -/
theorem SameObservable.access {s s' : State} (h : SameObservable s s') (addr : Nat) (size : AccessSize)
    {act act' : Reg → State} (hact : ∀ r, SameObservable (act r) (act' r)) :
    SameOutcome (access addr size s act) (access addr size s' act') := by
  simp only [Machine.access, h.cfg_eq]
  split
  · exact .fault .outsideBlock
  · split
    · exact .refused .narrowAccess
    · split
      · exact .refused .misaligned
      · exact .next (hact _)

/-- Every step, whatever agent acts. -/
theorem SameObservable.step {s s' : State} (h : SameObservable s s') : SameOutcome (step s) (step s') := by
  have he' := h.env_eq
  cases he : s.env with
  | nil =>
    rw [step_no_event he, step_no_event (he'.trans he)]
    exact h.coreStep
  | cons e rest =>
    have hrest := h.with_env rest
    cases e with
    | hostRead addr size =>
      rw [step_hostRead he, step_hostRead (he'.trans he)]
      exact hrest.access addr size fun r => hrest.hostReadReg r
    | hostWrite addr size v =>
      rw [step_hostWrite he, step_hostWrite (he'.trans he)]
      exact hrest.access addr size fun r => hrest.hostWriteReg r v
    | coreStep =>
      rw [step_coreStep he, step_coreStep (he'.trans he)]
      exact hrest.coreStep
    | reset =>
      rw [step_reset he, step_reset (he'.trans he)]
      exact .next hrest.applyReset

end Sys2Proof.Machine

namespace Sys2Proof

open Machine
open Host (Outcome)

/-- Settles O46: agent by agent, both steps answer the same but for H, buf and PRNG where they are unspecified. -/
theorem unspecifiedResetValuesAreUnobservable : Obligations.UnspecifiedResetValuesAreUnobservable := by
  intro s s' h
  have hstep := h.step
  generalize step s = o, step s' = o' at hstep
  cases hstep with
  | @next t t' ht => exact ⟨fun u hu => ⟨t', rfl, Outcome.next.inj hu ▸ ht⟩, fun _ => nofun, fun _ => nofun⟩
  | fault f => exact ⟨fun _ => nofun, fun _ => id, fun _ => nofun⟩
  | refused r => exact ⟨fun _ => nofun, fun _ => nofun, fun _ => id⟩

end Sys2Proof
end

section
/-! SUPPORT. Progress (spec/70_reset_and_hazards.md R254): from a state with the invariant every command completes, so
with defined accesses every step answers a next state, and each step takes its event off the list. -/

namespace Sys2Proof.Machine

/-! ### Commands complete -/

/-- Only FINAL can stop, on an initialised engine that is not READY (log 11). -/
theorem exec_completes {i : Instr} {s : State} (h : i = .final → s.initd = true → EngineReady s.eng) :
    ∃ t, exec i s = .next t := by
  cases i with
  | nop | init | seed | clrErr => exact ⟨_, rfl⟩
  | update n =>
    by_cases hn : n ≤ 4
    · cases hi : s.initd with
      | false => exact ⟨_, exec_update_noinit hn hi⟩
      | true =>
        obtain ⟨t, ht, -⟩ := exec_update_absorbs hi hn
        exact ⟨t, ht⟩
    · exact ⟨_, execUpdate_badlen s (Nat.lt_of_not_le hn)⟩
  | final =>
    cases hi : s.initd with
    | false => exact ⟨_, exec_final_noinit hi⟩
    | true => exact ⟨_, exec_final_ready hi (h rfl hi)⟩
  | saltGen n =>
    by_cases hn : n ≤ 16
    · cases hs : s.seeded with
      | false => exact ⟨_, exec_saltGen_noseed hn hs⟩
      | true => exact ⟨_, exec_saltGen_accepted hn hs⟩
    · exact ⟨_, execSaltGen_saltlen s (Nat.lt_of_not_le hn)⟩

theorem Invariant.with_env {s : State} (h : Invariant s) (env : List Event) : Invariant { s with env := env } :=
  { h with }

theorem Invariant.executeWord_completes {s : State} (h : Invariant s) (w : Word) : ∃ t, executeWord w s = .next t := by
  cases hd : decode w with
  | error r => exact ⟨_, executeWord_error s hd⟩
  | ok i =>
    rw [executeWord_ok s hd]
    exact exec_completes fun _ => h.ready

/-! ### The Core's turn -/

/-- After a Core step nothing is pending, and BASE and the events to come are as they were. -/
theorem coreStep_frame {s t : State} (h : coreStep s = .next t) : t.pend = none ∧ t.cfg = s.cfg ∧ t.env = s.env := by
  obtain ⟨hp, rfl⟩ | ⟨w, -, ⟨r, -, rfl⟩ | ⟨i, u, -, hu, rfl⟩⟩ := coreStep_next h
  · exact ⟨hp, rfl, rfl⟩
  · exact ⟨rfl, rfl, rfl⟩
  · obtain ⟨-, hcfg, henv, -⟩ := (exec_frame hu).outside
    exact ⟨rfl, hcfg, henv⟩

theorem coreStep_executes {s u : State} {w : Word} (hp : s.pend = some w) (hu : executeWord w s = .next u) :
    coreStep s = .next { u with pend := none } := by
  rw [coreStep_some hp, hu, retire]

theorem Invariant.coreStep_completes {s : State} (h : Invariant s) : ∃ t, coreStep s = .next t := by
  cases hp : s.pend with
  | none => exact ⟨s, coreStep_none hp⟩
  | some w =>
    obtain ⟨u, hu⟩ := h.executeWord_completes w
    exact ⟨_, coreStep_executes hp hu⟩

/-- The Core acts when its step is the next event and when no event is left (R81, log 5). -/
theorem step_core_turn {s : State} (h : s.env = [] ∨ s.env.head? = some .coreStep) :
    step s = coreStep { s with env := s.env.tail } := by
  obtain he | he := h
  · rw [step_no_event he, he, List.tail_nil, ← he]
  · exact step_coreStep (List.eq_cons_of_mem_head? he)

/-- In its turn the Core executes the pending word and clears PEND (R104). -/
theorem Invariant.step_executes {s : State} {w : Word} (h : Invariant s)
    (hturn : s.env = [] ∨ s.env.head? = some .coreStep) (hp : s.pend = some w) :
    ∃ u, executeWord w { s with env := s.env.tail } = .next u ∧ step s = .next { u with pend := none } := by
  obtain ⟨u, hu⟩ := (h.with_env s.env.tail).executeWord_completes w
  exact ⟨u, hu, (step_core_turn hturn).trans (coreStep_executes hp hu)⟩

/-! ### Defined accesses and the events to come -/

/-- A defined access is performed (R72). -/
theorem access_of_defined {addr : Nat} {size : AccessSize} {s : State} (act : Reg → State)
    (h : accessDefined s.cfg addr size = true) : access addr size s act = .next (act (regAt (addr - s.cfg.base))) := by
  simp only [accessDefined, Bool.and_eq_true, decide_eq_true_eq] at h
  obtain ⟨⟨⟨hlow, hhigh⟩, rfl⟩, halign⟩ := h
  obtain ⟨off, rfl⟩ := Nat.exists_eq_add_of_le hlow
  rw [Nat.add_sub_cancel_left] at halign ⊢
  exact access_word act (Nat.lt_of_add_lt_add_left hhigh) halign

/-- From s to t nothing that a command reads or writes has changed, but for ERR and ERRCODE, nor what is pending. -/
def KeepsCommand (s t : State) : Prop :=
  t = { s with
    env := t.env, lastRead := t.lastRead, freeCount := t.freeCount, err := t.err, errcode := t.errcode }

theorem KeepsCommand.refl (s : State) : KeepsCommand s s := rfl

theorem KeepsCommand.trans {s t u : State} (hst : KeepsCommand s t) (htu : KeepsCommand t u) : KeepsCommand s u := by
  rw [KeepsCommand, htu, hst]

theorem KeepsCommand.pend_eq {s t : State} (h : KeepsCommand s t) : t.pend = s.pend := by rw [h]

/-- A read changes no state of the core (R73). -/
theorem hostRead_frame {addr : Nat} {size : AccessSize} {s t : State} (h : hostRead addr size s = .next t) :
    t.cfg = s.cfg ∧ t.env = s.env ∧ KeepsCommand s t := by
  obtain ⟨-, -, -, -, rfl⟩ := access_next h
  obtain ⟨v, n, hread⟩ := hostReadReg_frame (regAt (addr - s.cfg.base)) s
  rw [hread]
  exact ⟨rfl, rfl, rfl⟩

/-- A write leaves what comes next, and while a command is pending at most records OVERRUN (R74, R75, R76). -/
theorem hostWrite_frame {addr : Nat} {size : AccessSize} {v : Word} {s t : State}
    (h : hostWrite addr size v s = .next t) :
    t.cfg = s.cfg ∧ t.env = s.env ∧ (s.pend ≠ none → KeepsCommand s t) := by
  obtain ⟨-, -, -, -, rfl⟩ := access_next h
  obtain ⟨-, hidle, hwrite⟩ | ⟨-, hidle, hwrite⟩ | ⟨-, -, hwrite⟩ | ⟨-, -, hwrite⟩ :=
    hostWriteReg_cases (regAt (addr - s.cfg.base)) v s
  · rw [hwrite]
    exact ⟨rfl, rfl, fun hp => absurd hidle hp⟩
  · rw [hwrite]
    exact ⟨rfl, rfl, fun hp => absurd hidle hp⟩
  · rw [hwrite]
    exact ⟨rfl, rfl, fun _ => rfl⟩
  · rw [hwrite]
    exact ⟨rfl, rfl, fun _ => rfl⟩

/-- A step takes one event off the list and leaves BASE. -/
theorem step_env {s t : State} (h : step s = .next t) : t.cfg = s.cfg ∧ t.env = s.env.tail := by
  obtain ⟨env, he, hc⟩ | ⟨_, _, rest, he, hr⟩ | ⟨_, _, _, rest, he, hw⟩ | ⟨rest, he, rfl⟩ := step_next h
  · obtain ⟨-, hcfg, henv⟩ := coreStep_frame hc
    obtain ⟨he, rfl⟩ | he := he
    · exact ⟨hcfg, by rw [henv, he]; rfl⟩
    · exact ⟨hcfg, by rw [henv, he]; rfl⟩
  · obtain ⟨hcfg, henv, -⟩ := hostRead_frame hr
    exact ⟨hcfg, by rw [henv, he]; rfl⟩
  · obtain ⟨hcfg, henv, -⟩ := hostWrite_frame hw
    exact ⟨hcfg, by rw [henv, he]; rfl⟩
  · exact ⟨rfl, by rw [he]; rfl⟩

theorem envDefined_cons {s : State} {e : Event} {rest : List Event} (he : s.env = e :: rest) :
    s.envDefined = true ↔ e.defined s.cfg = true ∧ ∀ e' ∈ rest, e'.defined s.cfg = true := by
  simp [State.envDefined, he]

/-- What is left of a safe run after a step is one. -/
theorem envDefined_step {s t : State} (hs : s.envDefined = true) (h : step s = .next t) : t.envDefined = true := by
  obtain ⟨hcfg, henv⟩ := step_env h
  rw [State.envDefined, List.all_eq_true] at hs ⊢
  rw [hcfg, henv]
  exact fun e he => hs e (List.mem_of_mem_tail he)

theorem Invariant.step_completes {s : State} (h : Invariant s) (hs : s.envDefined = true) : ∃ t, step s = .next t := by
  cases he : s.env with
  | nil =>
    rw [step_no_event he]
    exact h.coreStep_completes
  | cons e rest =>
    obtain ⟨hdef, -⟩ := (envDefined_cons he).mp hs
    cases e with
    | hostRead addr size => exact ⟨_, (step_hostRead he).trans (access_of_defined _ hdef)⟩
    | hostWrite addr size v => exact ⟨_, (step_hostWrite he).trans (access_of_defined _ hdef)⟩
    | coreStep =>
      rw [step_coreStep he]
      exact (h.with_env rest).coreStep_completes
    | reset => exact ⟨_, step_reset he⟩

end Sys2Proof.Machine

namespace Sys2Proof

open Machine

/-- Settles O49: the step completes, and keeps the invariant and the safe run. -/
theorem safeRunsNeverStop : Obligations.SafeRunsNeverStop := by
  intro s hinv hs
  obtain ⟨t, ht⟩ := hinv.step_completes hs
  exact ⟨t, ht, everyStepKeepsTheInvariant s t hinv ht, envDefined_step hs ht⟩

end Sys2Proof
end

section
/-! SUPPORT. An accepted command is executed (spec/70_reset_and_hazards.md R254): until the Core's turn or a Reset the
Host's accesses leave what the pending command reads and writes, but for ERR and ERRCODE. -/

namespace Sys2Proof.Machine

/-! ### Runs -/

theorem run_succ {s t : State} (k : Nat) (h : step s = .next t) :
    Host.Core.run core (k + 1) s = Host.Core.run core k t := by
  have hstep : core.step s = .next t := h
  simp only [Host.Core.run, hstep]

/-! ### While a command is pending -/

/-- A Host access leaves the pending command. -/
theorem step_access_keepsCommand {s t : State} {e : Event} {rest : List Event} (hp : s.pend ≠ none)
    (he : s.env = e :: rest) (hcore : e ≠ .coreStep) (hreset : e ≠ .reset) (h : step s = .next t) :
    KeepsCommand s t := by
  cases e with
  | hostRead addr size =>
    obtain ⟨-, -, hkeeps⟩ := hostRead_frame ((step_hostRead he).symm.trans h)
    exact hkeeps
  | hostWrite addr size v =>
    obtain ⟨-, -, hkeeps⟩ := hostWrite_frame ((step_hostWrite he).symm.trans h)
    exact hkeeps hp
  | coreStep => exact absurd rfl hcore
  | reset => exact absurd rfl hreset

/-- After k steps from s the word w is pending still, in t, and the next step, to v, executes it or resets the core. -/
structure EndsPending (w : Word) (s : State) (k : Nat) (t v : State) : Prop where
  within : k ≤ s.env.length
  run_before : Host.Core.run core k s = .next t
  run_after : Host.Core.run core (k + 1) s = .next v
  last : step t = .next v
  unchanged : KeepsCommand s t
  idle : v.pend = none
  executed : .reset ∉ s.env → ∃ u, executeWord w { t with env := t.env.tail } = .next u ∧ v = { u with pend := none }

theorem Invariant.endsPending_core {s : State} {w : Word} (h : Invariant s)
    (hturn : s.env = [] ∨ s.env.head? = some .coreStep) (hp : s.pend = some w) : ∃ v, EndsPending w s 0 s v := by
  obtain ⟨u, hu, hstep⟩ := h.step_executes hturn hp
  exact ⟨_, Nat.zero_le _, rfl, run_succ 0 hstep, hstep, .refl s, rfl, fun _ => ⟨u, hu, rfl⟩⟩

theorem endsPending_reset {s : State} {rest : List Event} (w : Word) (he : s.env = .reset :: rest) :
    EndsPending w s 0 s (applyReset { s with env := rest }) :=
  have hstep := step_reset he
  ⟨Nat.zero_le _, rfl, run_succ 0 hstep, hstep, .refl s, rfl, fun h => absurd (by simp [he]) h⟩

theorem EndsPending.after_access {s a t v : State} {w : Word} {k : Nat} (hne : s.env ≠ []) (hstep : step s = .next a)
    (hsame : KeepsCommand s a) (h : EndsPending w a k t v) : EndsPending w s (k + 1) t v where
  within := by
    have hlen := h.within
    rw [(step_env hstep).2, List.length_tail] at hlen
    have := List.length_pos_iff.mpr hne
    omega
  run_before := (run_succ k hstep).trans h.run_before
  run_after := (run_succ (k + 1) hstep).trans h.run_after
  last := h.last
  unchanged := hsame.trans h.unchanged
  idle := h.idle
  executed hr := h.executed fun ha => hr (List.mem_of_mem_tail ((step_env hstep).2 ▸ ha))

/-- A pending word does not stay so: by induction on the events to come. -/
theorem Invariant.endsPending {s : State} {w : Word} (h : Invariant s) (hs : s.envDefined = true)
    (hp : s.pend = some w) : ∃ k t v, EndsPending w s k t v := by
  generalize he : s.env = env
  induction env generalizing s with
  | nil => exact ⟨0, s, h.endsPending_core (.inl he) hp⟩
  | cons e rest ih =>
    by_cases hcore : e = .coreStep
    · exact ⟨0, s, h.endsPending_core (.inr (by rw [he, hcore]; rfl)) hp⟩
    by_cases hreset : e = .reset
    · exact ⟨0, s, _, endsPending_reset w (hreset ▸ he)⟩
    obtain ⟨a, ha⟩ := h.step_completes hs
    have hsame := step_access_keepsCommand (by simp [hp]) he hcore hreset ha
    obtain ⟨k, t, v, hend⟩ := ih (everyStepKeepsTheInvariant s a h ha) (envDefined_step hs ha)
      (hsame.pend_eq.trans hp) (by rw [(step_env ha).2, he]; rfl)
    exact ⟨k + 1, t, v, hend.after_access (by simp [he]) ha hsame⟩

end Sys2Proof.Machine

namespace Sys2Proof

open Machine

/-- Settles O50: the Core's turn comes, with the pending command as it was accepted, unless a Reset comes before. -/
theorem acceptedCommandsComplete : Obligations.AcceptedCommandsComplete := by
  intro s hinv hs
  refine ⟨fun w hp hr => ?_, ?_⟩
  · obtain ⟨k, t, v, hend⟩ := hinv.endsPending hs hp
    obtain ⟨u, hu, rfl⟩ := hend.executed hr
    exact ⟨k, t, u, hend.within, hend.run_before, hend.unchanged, hu, hend.last, hend.run_after⟩
  · cases hp : s.pend with
    | none => exact ⟨0, s, Nat.zero_le _, rfl, hp⟩
    | some w =>
      obtain ⟨k, t, v, hend⟩ := hinv.endsPending hs hp
      exact ⟨k + 1, v, Nat.add_le_add_right hend.within 1, hend.run_after, hend.idle⟩

end Sys2Proof
end

section
/-! SUPPORT. How many blocks a command folds into H, and which (spec/70_reset_and_hazards.md R255): the bytes of an
UPDATE fill at most one block, those of FINAL's padding one or two. -/

namespace Sys2Proof.Machine

open Sha1

/-! ### Bytes that fill a block and go on -/

theorem absorb_work_of_lt {e : Engine} (b : Byte) (h : e.bufcnt.toNat < 63) : (absorb e b).work = e.work := by
  have hne : e.bufcnt ≠ 63 := fun hf => by simp [hf] at h
  rw [absorb_of_room b hne]

/-- Bytes that leave room in the buffer run no compression, so the working registers are not used. -/
theorem absorbAll_work_of_room {e : Engine} {bs : List Byte} (h : e.bufcnt.toNat + bs.length < 64) :
    (absorbAll e bs).work = e.work := by
  induction bs generalizing e with
  | nil => rfl
  | cons b bs ih =>
    rw [List.length_cons] at h
    have hf : e.bufcnt.toNat < 63 := by omega
    obtain ⟨hcnt, -, -⟩ := absorb_of_lt b hf
    rw [absorbAll_cons, ih (by omega), absorb_work_of_lt b hf]

/-- Bytes that fill the buffer leave it empty. -/
theorem absorbAll_bufcnt_of_full {e : Engine} {bs : List Byte} (h : e.bufcnt.toNat + bs.length = 64) :
    (absorbAll e bs).bufcnt.toNat = 0 := by
  rw [absorbAll_bufcnt, BitVec.toNat_add, BitVec.toNat_ofNat]
  omega

/-- Bytes that fill the buffer, and then leave room in it, fold one block into H. -/
theorem absorbAll_h_one_block {e : Engine} {bs cs : List Byte} (hbs : e.bufcnt.toNat + bs.length = 64)
    (hcs : cs.length < 64) : (absorbAll e (bs ++ cs)).h = blockStep e.h (writeBytes e.buf e.bufcnt.toNat bs) := by
  obtain ⟨hh, -⟩ := absorbAll_of_room (e := absorbAll e bs) (bs := cs) (by rw [absorbAll_bufcnt_of_full hbs]; omega)
  rw [absorbAll_append, hh, absorbAll_of_full hbs]

/-- Bytes that fill the buffer twice fold two blocks into H, the second of the last 64 bytes alone. -/
theorem absorbAll_h_two_blocks {e : Engine} {bs cs : List Byte} (hbs : e.bufcnt.toNat + bs.length = 64)
    (hcs : cs.length = 64) :
    (absorbAll e (bs ++ cs)).h = blockStep (blockStep e.h (writeBytes e.buf e.bufcnt.toNat bs))
      (writeBytes (absorbAll e bs).buf 0 cs) := by
  have hcnt := absorbAll_bufcnt_of_full hbs
  rw [absorbAll_append, absorbAll_of_full (by rw [hcnt, hcs]), absorbAll_of_full hbs, hcnt]

/-! ### UPDATE -/

/-- The block that an UPDATE's bytes fill from place r on (R135). -/
theorem writeBytes_dataBytes (buf : Vector Byte 64) (v : Word) {r : Nat} (hr : 60 ≤ r) :
    writeBytes buf r (dataBytes v (64 - r)) = Vector.ofFn fun i : Fin 64 =>
      if i.val < r then buf[i] else v.extractLsb' (24 - 8 * (i.val - r)) 8 := by
  ext1 i hi
  rw [writeBytes_getElem, Vector.getElem_ofFn]
  split
  · rfl
  · rw [dataBytes_eq_map v (by omega), List.getD_eq_getElem _ _ (by simp; omega), List.getElem_map, List.getElem_range]
    rfl

/-- The bytes that fill the block come first. -/
theorem dataBytes_split {n k : Nat} (v : Word) (hk : k ≤ n) :
    dataBytes v n = dataBytes v k ++ (dataBytes v n).drop k := by
  have htake : dataBytes v k = (dataBytes v n).take k := by
    rw [dataBytes, dataBytes, List.take_take, Nat.min_eq_left hk]
  rw [htake, List.take_append_drop]

theorem absorbAll_dataBytes_h {e : Engine} {n : Nat} (v : Word) (hn : n ≤ 4) (h : 64 ≤ e.bufcnt.toNat + n) :
    (absorbAll e (dataBytes v n)).h =
      blockStep e.h (writeBytes e.buf e.bufcnt.toNat (dataBytes v (64 - e.bufcnt.toNat))) := by
  have hr := e.bufcnt.isLt
  rw [dataBytes_split v (k := 64 - e.bufcnt.toNat) (by omega)]
  apply absorbAll_h_one_block
  · rw [dataBytes_length v (by omega)]
    omega
  · rw [List.length_drop, dataBytes_length v hn]
    omega

theorem compressions_update {s : State} {n : Nat} (hn : n ≤ 4) (hi : s.initd = true) :
    compressions (.update n) s = (s.eng.bufcnt.toNat + n) / 64 := by
  rw [compressions, if_pos ⟨hn, hi⟩, compressionsOf_eq, dataBytes_length _ hn]

theorem compressions_update_rejected {s : State} {n : Nat} (h : 4 < n ∨ s.initd = false) :
    compressions (.update n) s = 0 := by
  refine if_neg ?_
  rintro ⟨hn, hi⟩
  obtain h | h := h
  · omega
  · simp [h] at hi

theorem exec_update_rejected_eng {s : State} {n : Nat} (h : 4 < n ∨ s.initd = false) :
    ∃ t, exec (.update n) s = .next t ∧ t.eng = s.eng := by
  by_cases hn : n ≤ 4
  · exact ⟨_, exec_update_noinit hn (h.resolve_left (Nat.not_lt.mpr hn)), rfl⟩
  · exact ⟨_, execUpdate_badlen s (Nat.lt_of_not_le hn), rfl⟩

/-! ### FINAL -/

theorem lengthBytes_getD {j : Nat} (l : BitVec 64) (d : Byte) (hj : j < 8) :
    (lengthBytes l).getD j d = l.extractLsb' (8 * (7 - j)) 8 := by
  interval_cases j <;> rfl

/-- The last block of a padding: zeros up to byte 56, and the length field (R151, R152). -/
theorem zeros_lengthBytes_getD {z j : Nat} (l : BitVec 64) (d : Byte) (hj : j < z + 8) :
    (List.replicate z 0x00 ++ lengthBytes l).getD j d =
      if j < z then 0x00 else l.extractLsb' (8 * (z + 7 - j)) 8 := by
  split
  · next h =>
    rw [List.getD_append _ _ _ _ (by simpa using h), List.getD_replicate _ h]
  · next h =>
    rw [List.getD_append_right _ _ _ _ (by simpa using h), List.length_replicate, lengthBytes_getD l d (by omega)]
    congr 2
    omega

/-- The zero bytes counted are those the loop absorbs. -/
theorem padZeros_eq {fuel z : Nat} {e : Engine} (hz : z < 64) (hfuel : z ≤ fuel)
    (hend : (e.bitcnt.toNat + 8 * z) % 512 = 448) : padZeros fuel e = List.replicate z 0x00 := by
  induction z generalizing fuel e with
  | zero =>
    cases fuel with
    | zero => rfl
    | succ fuel => exact if_pos hend
  | succ z ih =>
    obtain ⟨fuel, rfl⟩ := Nat.exists_eq_add_of_le' (Nat.lt_of_lt_of_le z.succ_pos hfuel)
    have hcnt : (absorb e 0x00).bitcnt.toNat = (e.bitcnt.toNat + 8) % 2 ^ 64 := by simp
    rw [padZeros, if_neg (by omega), ih (by omega) (by omega) (by omega)]
    rfl

/-- The compressions counted for FINAL are those of the padding law's bytes (R151). -/
theorem EngineReady.padCompressions_eq {e : Engine} (h : EngineReady e) :
    padCompressions e = compressionsOf e (paddingBytes e.bufcnt.toNat e.bitcnt) := by
  have hpad := h.padMessage_eq
  obtain ⟨hbytes, hcount, -⟩ := h
  have hcnt : (Machine.absorb e 0x80).bitcnt.toNat = (e.bitcnt.toNat + 8) % 2 ^ 64 := by simp
  have hzeros : padZeros padFuel (Machine.absorb e 0x80) = List.replicate ((119 - e.bufcnt.toNat) % 64) 0x00 :=
    padZeros_eq (by omega) (by rw [padFuel]; omega) (by omega)
  simp only [padCompressions, hpad, hzeros, paddingBytes]

theorem compressions_final {s : State} (hi : s.initd = true) (h : EngineReady s.eng) :
    compressions .final s = if s.eng.bufcnt.toNat ≤ 55 then 1 else 2 := by
  obtain ⟨p, -, -, -, -, hcount⟩ := paddingEndsOnABlockBoundary s.eng h
  rw [compressions, if_pos hi, h.padCompressions_eq, hcount]

theorem paddingBytes_of_le {r : Nat} (l : BitVec 64) (hr : r ≤ 55) :
    paddingBytes r l = 0x80 :: (List.replicate (55 - r) 0x00 ++ lengthBytes l) := by
  rw [paddingBytes, show (119 - r) % 64 = 55 - r by omega, List.cons_append]

/-- From 56 buffered bytes on the length field does not fit, and a block of its own follows. -/
theorem paddingBytes_of_gt {r : Nat} (l : BitVec 64) (hr : 55 < r) (hr64 : r < 64) :
    paddingBytes r l = (0x80 :: List.replicate (63 - r) 0x00) ++ (List.replicate 56 0x00 ++ lengthBytes l) := by
  rw [paddingBytes, show (119 - r) % 64 = 63 - r + 56 by omega, List.replicate_add, List.cons_append, List.cons_append,
    List.append_assoc]

theorem writeBytes_cons_getElem (buf : Vector Byte 64) (r : Nat) (b : Byte) (bs : List Byte) {i : Nat} (hi : i < 64) :
    (writeBytes buf r (b :: bs))[i] = if i < r then buf[i] else if i = r then b else bs.getD (i - (r + 1)) buf[i] := by
  rw [writeBytes_getElem]
  obtain hlt | rfl | hgt := Nat.lt_trichotomy i r
  · rw [if_pos hlt, if_pos hlt]
  · simp
  · rw [if_neg (by omega), if_neg (by omega), if_neg (by omega), show i - r = i - (r + 1) + 1 by omega,
      List.getD_cons_succ]

/-- The one block of the padding where it fits. -/
theorem writeBytes_paddingBytes (buf : Vector Byte 64) (l : BitVec 64) {r : Nat} (hr : r ≤ 55) :
    writeBytes buf r (paddingBytes r l) = Vector.ofFn fun i : Fin 64 =>
      if i.val < r then buf[i]
      else if i.val = r then 0x80
      else if i.val < 56 then 0x00
      else l.extractLsb' (8 * (63 - i.val)) 8 := by
  ext1 i hi
  rw [paddingBytes_of_le l hr, writeBytes_cons_getElem, Vector.getElem_ofFn]
  dsimp only
  refine ite_congr rfl (fun _ => rfl) fun hlow => ite_congr rfl (fun _ => rfl) fun hne => ?_
  rw [zeros_lengthBytes_getD l _ (by omega)]
  exact if_congr (by omega) rfl (by congr 2; omega)

/-- The first block of the padding where it does not fit. -/
theorem writeBytes_padding_zeros (buf : Vector Byte 64) (r : Nat) :
    writeBytes buf r (0x80 :: List.replicate (63 - r) 0x00) = Vector.ofFn fun i : Fin 64 =>
      if i.val < r then buf[i] else if i.val = r then 0x80 else 0x00 := by
  ext1 i hi
  rw [writeBytes_cons_getElem, Vector.getElem_ofFn]
  refine ite_congr rfl (fun _ => rfl) fun hlow => ite_congr rfl (fun _ => rfl) fun hne => ?_
  exact List.getD_replicate _ (by omega)

/-- The second block there: zeros and the length field. -/
theorem writeBytes_length_block (buf : Vector Byte 64) (l : BitVec 64) :
    writeBytes buf 0 (List.replicate 56 0x00 ++ lengthBytes l) = Vector.ofFn fun i : Fin 64 =>
      if i.val < 56 then 0x00 else l.extractLsb' (8 * (63 - i.val)) 8 := by
  ext1 i hi
  rw [writeBytes_getElem, Vector.getElem_ofFn, if_neg (Nat.not_lt_zero i), Nat.sub_zero, zeros_lengthBytes_getD l _ hi]

/-- A padding that fits the block folds it into H. -/
theorem absorbAll_paddingBytes_h {e : Engine} (hr : e.bufcnt.toNat ≤ 55) :
    (absorbAll e (paddingBytes e.bufcnt.toNat e.bitcnt)).h =
      blockStep e.h (writeBytes e.buf e.bufcnt.toNat (paddingBytes e.bufcnt.toNat e.bitcnt)) := by
  apply absorbAll_of_full
  rw [paddingBytes_length]
  omega

end Sys2Proof.Machine

namespace Sys2Proof

open Machine

/-- Settles O26: the bytes a command absorbs, cut at the block boundaries they cross; the other commands leave H. -/
theorem compressionsPerCommand : Obligations.CompressionsPerCommand := by
  intro s
  have hr64 := s.eng.bufcnt.isLt
  refine ⟨fun n hn hi hroom => ?_, fun n hn hi hfull => ?_, fun n hrej => ?_, fun hi h hr => ?_, fun hi h hr => ?_,
    fun hi => ?_, ?_, fun i hother => ?_⟩
  · obtain ⟨t, ht, -, heng⟩ := exec_update_absorbs hi hn
    have hlen : s.eng.bufcnt.toNat + (dataBytes s.data n).length < 64 := by rwa [dataBytes_length _ hn]
    obtain ⟨hh, -⟩ := absorbAll_of_room hlen
    exact ⟨t, ht, by rw [heng, hh], by rw [heng, absorbAll_work_of_room hlen],
      by rw [compressions_update hn hi]; omega⟩
  · obtain ⟨t, ht, -, heng⟩ := exec_update_absorbs hi hn
    refine ⟨t, ht, ?_, by rw [compressions_update hn hi]; omega⟩
    rw [heng, absorbAll_dataBytes_h _ hn hfull, writeBytes_dataBytes _ _ (by omega)]
  · obtain ⟨t, ht, heng⟩ := exec_update_rejected_eng hrej
    exact ⟨t, ht, heng, compressions_update_rejected hrej⟩
  · refine ⟨_, exec_final_ready hi h, ?_, by rw [compressions_final hi h, if_pos hr]⟩
    simp only [absorbAll_paddingBytes_h hr, writeBytes_paddingBytes _ _ hr]
  · refine ⟨_, exec_final_ready hi h, ?_, by rw [compressions_final hi h, if_neg (Nat.not_le.mpr hr)]⟩
    have hfill : s.eng.bufcnt.toNat + ((0x80 : Byte) :: List.replicate (63 - s.eng.bufcnt.toNat) 0x00).length = 64 := by
      rw [List.length_cons, List.length_replicate]
      omega
    simp only [paddingBytes_of_gt _ hr hr64]
    rw [absorbAll_h_two_blocks hfill (by rfl), writeBytes_padding_zeros, writeBytes_length_block]
  · exact ⟨_, exec_final_noinit hi, rfl, rfl, by simp [compressions, hi]⟩
  · exact ⟨_, rfl, rfl, rfl, rfl⟩
  · obtain rfl | rfl | rfl | ⟨n, rfl⟩ := hother
    · exact ⟨_, rfl, rfl, rfl⟩
    · exact ⟨_, rfl, rfl, rfl⟩
    · exact ⟨_, rfl, rfl, rfl⟩
    · obtain ⟨t, ht⟩ := exec_completes (i := .saltGen n) (s := s) nofun
      exact ⟨t, ht, (exec_frame ht).eng nofun nofun nofun, rfl⟩

end Sys2Proof
end

section
/-! SUPPORT. Reset, and the Host's accesses around a pending command, as the Host sees them
(spec/70_reset_and_hazards.md R240, R250, R251). -/

namespace Sys2Proof.Machine

/-- While BUSY = 1 the results of BITCNT, DIGEST and SALT read as the draw has them (R251). -/
theorem readRegBusy_result {off : Nat} (free : Word)
    (h : off ∈ [0x10, 0x14, 0x20, 0x24, 0x28, 0x2C, 0x30, 0x40, 0x44, 0x48, 0x4C]) :
    readRegBusy (regAt off) free = free := by
  simp only [List.mem_cons, List.not_mem_nil, or_false] at h
  obtain rfl | rfl | rfl | rfl | rfl | rfl | rfl | rfl | rfl | rfl | rfl := h <;> rfl

/-- The offsets without a result select CMD, DATA or no register (R71). -/
theorem regAt_no_result {off : Nat}
    (h : off ∉ [0x04, 0x10, 0x14, 0x20, 0x24, 0x28, 0x2C, 0x30, 0x40, 0x44, 0x48, 0x4C]) :
    regAt off = .cmd ∨ regAt off = .data ∨ regAt off = .reserved := by
  unfold regAt
  split <;> simp at h ⊢

theorem readRegBusy_no_result {r : Reg} (free : Word) (h : r = .cmd ∨ r = .data ∨ r = .reserved) :
    readRegBusy r free = 0 := by
  obtain rfl | rfl | rfl := h <;> rfl

/-- The other bits of STATUS read as the draw has them (R251). -/
theorem busyStatus_bit_succ (free : Word) {k : Nat} (hk : 0 < k) :
    (busyStatus free).getLsbD k = free.getLsbD k := by
  simp [busyStatus, hk.ne']

/-! ### Writes to CMD and DATA, as steps (R74, R75, R250) -/

section

variable {s : State} {off : Nat} {v : Word} {rest : List Event}
  (he : s.env = .hostWrite (s.cfg.base + off) .word v :: rest)

include he

/-- The step of a write to CMD or DATA while nothing is pending. -/
theorem step_write_idle (hoff : off = 0x00 ∨ off = 0x08) (hp : s.pend = none) :
    step s = .next
      (if off = 0x00 then { s with env := rest, pend := some v } else { s with env := rest, data := v }) := by
  rw [step_hostWrite he]
  obtain rfl | rfl := hoff
  · exact (cmdWriteSubmitsOrOverruns { s with env := rest } v).1 hp
  · exact (dataWriteLoadsOrOverruns { s with env := rest } v).1 hp

/-- The step of a write to CMD or DATA while a command is pending. -/
theorem step_write_busy {w : Word} (hoff : off = 0x00 ∨ off = 0x08) (hp : s.pend = some w) :
    step s = .next { s with env := rest, err := true, errcode := if s.err then s.errcode else 6 } := by
  rw [step_hostWrite he]
  obtain rfl | rfl := hoff
  · exact (cmdWriteSubmitsOrOverruns { s with env := rest } v).2 w hp
  · exact (dataWriteLoadsOrOverruns { s with env := rest } v).2 w hp

end

end Sys2Proof.Machine

namespace Sys2Proof

open Machine

/-- Settles O36: the read takes one draw, and the register makes its bits of it. -/
theorem readsWhileBusyAreUnspecified : Obligations.ReadsWhileBusyAreUnspecified := by
  intro s w off hp hb ha
  refine ⟨readRegBusy (regAt off) (Config.busyRead s.freeCount), ?_, ?_, readRegBusy_result _,
    fun h => readRegBusy_no_result _ (regAt_no_result h)⟩
  · rw [hostRead_word s hb ha, hostReadReg_pending _ hp]
  · rintro rfl
    exact ⟨busyStatus_bit_zero _, fun k => busyStatus_bit_succ _⟩

/-- Settles O43: in both orders the first write submits w; the second comes while it is pending, or after its Core
step. -/
theorem busyHazardHasBothOutcomes : Obligations.BusyHazardHasBothOutcomes := by
  intro s t off w v rest hoff hp hcore
  have hsubmit (events : List Event) :
      step { s with env := .hostWrite (s.cfg.base + 0x00) .word w :: events } =
        .next { s with env := events, pend := some w } := step_write_idle rfl (.inl rfl) hp
  constructor
  · have hdrop := step_write_busy
      (s := { s with env := .hostWrite (s.cfg.base + off) .word v :: rest, pend := some w }) rfl hoff rfl
    exact (run_succ 1 (hsubmit _)).trans (run_succ 0 hdrop)
  · obtain ⟨hidle, hcfg, henv⟩ := coreStep_frame hcore
    have hexecute := (step_coreStep (s := { s with env := .coreStep :: _ :: rest, pend := some w }) rfl).trans hcore
    have haccept := step_write_idle (by rw [henv, hcfg]) hoff hidle
    exact (run_succ 2 (hsubmit _)).trans ((run_succ 1 hexecute).trans (run_succ 0 haccept))

/-- Settles O44: Reset gives every element the value State.reset holds, but for H, buf and PRNG. -/
theorem resetClearsTheCore : Obligations.ResetClearsTheCore := by
  intro s
  obtain ⟨-, -, -, -, -, -, -, -, -, -, -, -, -, hstatus⟩ := resetStateHoldsTheSpecsValues
  exact ⟨rfl, rfl, rfl, rfl, rfl, rfl, rfl, rfl, rfl, rfl, rfl, rfl, rfl, hstatus, hstatus⟩

end Sys2Proof
end
